-- ==== Sys2Proof/Word.lean ====
section
/-! DEFINITION. The machine's word types: what the spec calls a byte, a descriptor or response word, and an event record. -/

namespace Sys2Proof

/-- An unsigned integer 0 to 255: a payload byte, a colour channel, a packed-buffer element, an index byte
(R9 `BYTE`, R11). -/
abbrev Byte := BitVec 8

/-- A 32-bit word of a command descriptor or of a response descriptor (R9 `WORD`, R60, R74). -/
abbrev Word := BitVec 32

/-- A 16-bit record of the EVT channel (R77). -/
abbrev EventRecord := BitVec 16

end Sys2Proof
end

