-- ==== Sys2Proof/Config.lean ====
section
/-! DEFINITION. What an implementation fixes (the parameters of R9 with the values this hardware takes) and the free
values of the model: constants with no body, so that no proof can see what they are. -/

namespace Sys2Proof.Config

/-- The parameters of R9 that a model may vary. `BYTE`, `PLANES`, `LEVELS`, `STEP`, `ALPHA` and `WORD` are fixed by
the spec and stand in the rules' own formulas. -/
structure Params where
  /-- `LMAX`: the largest input payload length the core gives a meaning (R9, R10). -/
  lmax : Nat
  /-- `PCT_DECODE_START` (R9, R196). -/
  pctDecodeStart : Nat
  /-- `PCT_DECODE_DONE` (R9, R196). -/
  pctDecodeDone : Nat
  /-- `PCT_ENCODE_DONE` (R9, R196). -/
  pctEncodeDone : Nat
  deriving DecidableEq, Repr

/-- The ranges R9 allows: `LMAX` up to 2^28 - 1, each percentage up to 100. -/
def Params.legal (p : Params) : Bool :=
  decide (p.lmax ≤ 2 ^ 28 - 1) && decide (p.pctDecodeStart ≤ 100) && decide (p.pctDecodeDone ≤ 100)
    && decide (p.pctEncodeDone ≤ 100)

/-- The values this hardware takes (the column "value" of R9). The operations that depend on them take a `Params`
argument; only the meanings and the step name this one (log entry 7). -/
def hardware : Params :=
  { lmax := 268435455, pctDecodeStart := 0, pctDecodeDone := 100, pctEncodeDone := 100 }

/-- Free value (log entry 4): whether, at the `n`-th free choice, the next element of an answer to be delivered is an
event rather than an output byte. R54 (d) and R197 promise no order between DOUT and EVT. -/
opaque eventFirst (n : Nat) : Bool

/-- Free value (log entry 5): how many bytes of its payload a command had consumed when reset cut it short (R212). -/
opaque abandonedConsumed (n : Nat) : Nat

/-- Free value (log entry 5): the DOUT bytes of a command that reset cut short; they "have no defined meaning"
(R212, U13). -/
opaque abandonedBytes (n : Nat) : List Byte

/-- Free value (log entry 5): the EVT records of a command that reset cut short (R212, U13). -/
opaque abandonedEvents (n : Nat) : List EventRecord

/-- Free value (log entry 5): what stands on RSP of a response that reset cut short after some of its words had been
delivered (R212: the command "delivers no response descriptor"). -/
opaque abandonedWords (n : Nat) : List Word

end Sys2Proof.Config
end

