-- ==== Sys2Proof/Syntax.lean ====
section
/-! DEFINITION. The commands of the core as syntax: one constructor of `Instr` per row of spec/opcode_table.json, the
descriptor that encodes a command, and the verdicts of decoding. -/

namespace Sys2Proof

/-- A command term, as R65's decoding procedure returns it. `width` is the signed integer `sext_32(W1)`, `height` and
`len` the unsigned integers `zext_32(W2)` and `zext_32(W3)` (R63). The input payload is no field: the core consumes it
from DIN (R41, R61). -/
inductive Instr where
  /-- UNPACK, `decode(bytes) -> pixel indices` (R67, R102). -/
  | unpack (len : Nat)
  /-- EXPAND, `indicesToRGBA(indices) -> RGBA buffer` (R68, R106). -/
  | expand (len : Nat)
  /-- DEC, `decodeToRGBA(packed, width) -> RGBAImage` (R69, R110). -/
  | dec (width : Int) (len : Nat)
  /-- QUANT, `RGBA buffer -> pixel indices` (R70, R133). -/
  | quant (len : Nat)
  /-- PACK, `encode(indices) -> bytes` (R71, R139). -/
  | pack (width : Int) (height len : Nat)
  /-- ENC, `encodeFromRGBA(image) -> PackedBuffer` (R72, R142). -/
  | enc (width : Int) (height len : Nat)
  deriving DecidableEq, Repr

/-- `LEN`, which every command has (R64). -/
def Instr.len : Instr → Nat
  | .unpack len => len
  | .expand len => len
  | .dec _ len => len
  | .quant len => len
  | .pack _ _ len => len
  | .enc _ _ len => len

/-- A command descriptor in the one format `DESC4` (R60, R62). -/
structure Descriptor where
  /-- W0: `OP` in bits 7:0, `RSV0` in bits 31:8. -/
  w0 : Word
  /-- W1: `WIDTH`. -/
  w1 : Word
  /-- W2: `HEIGHT`. -/
  w2 : Word
  /-- W3: `LEN`. -/
  w3 : Word
  deriving DecidableEq, Repr

/-- The descriptor's words in CMD-channel order (R60). -/
def Descriptor.words (d : Descriptor) : List Word := [d.w0, d.w1, d.w2, d.w3]

/-- Why a descriptor is illegal: the three cases (a), (b), (c) of R73. -/
inductive IllegalCause where
  /-- (a) `OP` is 0x00 or 0x07 to 0xFF. -/
  | reservedOpcode
  /-- (b) `RSV0` is not 0. -/
  | reservedBits
  /-- (c) a field the command does not use is not 0 (R64). -/
  | unusedField
  deriving DecidableEq, Repr

/-- The result of R65's decoding procedure. -/
inductive Verdict where
  /-- The descriptor spells a command. -/
  | command (i : Instr)
  /-- `Illegal`: the command ends with status ILLEGAL_CMD (R73 (a) to (c), R183). -/
  | illegal (cause : IllegalCause)
  /-- `Refused`: `LEN > LMAX`, to which the spec gives no meaning (R73 (d), R10). -/
  | refused
  deriving DecidableEq, Repr

/-- Why a byte sequence is no command, for the byte-wide carriage of descriptors (R43). -/
inductive DecodeError where
  /-- Fewer than the sixteen bytes of a descriptor. -/
  | truncated
  /-- The sixteen bytes are an illegal descriptor (R73 (a) to (c)). -/
  | illegal (cause : IllegalCause)
  /-- The sixteen bytes are a descriptor with `LEN > LMAX` (R73 (d)). -/
  | refused
  deriving DecidableEq, Repr

end Sys2Proof
end

