-- ==== Sys2Proof/WellFormed.lean ====
section
/-! DEFINITION. Which command terms the encoding admits: the ranges of the descriptor's fields. -/

namespace Sys2Proof

/-- `WIDTH` is a signed 32-bit integer (R62, R63). -/
def widthInRange (width : Int) : Bool :=
  decide (-2147483648 ≤ width) && decide (width ≤ 2147483647)

/-- `HEIGHT` is an unsigned 32-bit integer (R62, R63). -/
def heightInRange (height : Nat) : Bool := decide (height ≤ 4294967295)

/-- `LEN` is 0 to `LMAX` (R62, R73 (d)), and fits its field. -/
def lenInRange (p : Config.Params) (len : Nat) : Bool :=
  decide (len ≤ p.lmax) && decide (len ≤ 4294967295)

/-- The command's operands are values its descriptor can carry. Nothing is said of widths at or below zero or of
payload lengths that do not fit the shape: such commands are well formed and end with a fault status. -/
def Instr.wellFormedFor (p : Config.Params) : Instr → Bool
  | .unpack len => lenInRange p len
  | .expand len => lenInRange p len
  | .dec width len => widthInRange width && lenInRange p len
  | .quant len => lenInRange p len
  | .pack width height len => widthInRange width && heightInRange height && lenInRange p len
  | .enc width height len => widthInRange width && heightInRange height && lenInRange p len

/-- Well formed for this hardware's `LMAX`. -/
def Instr.wellFormed (i : Instr) : Bool := i.wellFormedFor Config.hardware

end Sys2Proof
end

