-- ==== Sys2Proof/Decode.lean ====
section
/-! DEFINITION. Decoding a command descriptor (R65), total on any four words and on any bytes, the encoder of R67 to
R72, and the little-endian byte form of a descriptor (R43). -/

namespace Sys2Proof

/-- `v[hi:lo]` (R11). -/
def bitField (v hi lo : Nat) : Nat := (v >>> lo) % 2 ^ (hi - lo + 1)

/-- `sext_32(w)` (R14): `w` if `w < 2^31`, else `w - 2^32`. -/
def sext32 (w : Word) : Int :=
  if w.toNat < 2 ^ 31 then (w.toNat : Int) else (w.toNat : Int) - 2 ^ 32

/-- `OP`, bits 7:0 of W0 (R62). -/
def Descriptor.op (d : Descriptor) : Nat := bitField d.w0.toNat 7 0

/-- `RSV0`, bits 31:8 of W0 (R62). -/
def Descriptor.rsv0 (d : Descriptor) : Nat := bitField d.w0.toNat 31 8

/-- `WIDTH`, signed (R63). -/
def Descriptor.width (d : Descriptor) : Int := sext32 d.w1

/-- `HEIGHT`, unsigned (R63). -/
def Descriptor.height (d : Descriptor) : Nat := d.w2.toNat

/-- `LEN`, unsigned (R63): the payload length, whatever `OP` is (R61, R78). -/
def Descriptor.len (d : Descriptor) : Nat := d.w3.toNat

/-- The command, when a must-be-zero field (R64) is zero; `Illegal` otherwise (R73 (c)). -/
def requireUnused (unusedIsZero : Bool) (i : Instr) : Verdict :=
  if unusedIsZero then .command i else .illegal .unusedField

/-- The decoding procedure of R65 for the parameters `p`. -/
def decodeFor (p : Config.Params) (d : Descriptor) : Verdict :=
  if p.lmax < d.len then .refused
  else if d.rsv0 ≠ 0 then .illegal .reservedBits
  else match d.op with
    | 0x01 => requireUnused (d.w1 == 0 && d.w2 == 0) (.unpack d.len)
    | 0x02 => requireUnused (d.w1 == 0 && d.w2 == 0) (.expand d.len)
    | 0x03 => requireUnused (d.w2 == 0) (.dec d.width d.len)
    | 0x04 => requireUnused (d.w1 == 0 && d.w2 == 0) (.quant d.len)
    | 0x05 => .command (.pack d.width d.height d.len)
    | 0x06 => .command (.enc d.width d.height d.len)
    | _ => .illegal .reservedOpcode

/-- The decoding procedure with this hardware's parameters. -/
def decode (d : Descriptor) : Verdict := decodeFor Config.hardware d

/-- The descriptor of a command (R67 to R72): unused fields zero, `WIDTH` in two's complement. A command that is not well
formed has no descriptor in the spec; that an operand its field cannot carry (R63) goes in modulo 2^32, so that the
descriptor is another command's, is the model's choice (log entry 21). -/
def encode : Instr → Descriptor
  | .unpack len => ⟨0x00000001, 0, 0, BitVec.ofNat 32 len⟩
  | .expand len => ⟨0x00000002, 0, 0, BitVec.ofNat 32 len⟩
  | .dec width len => ⟨0x00000003, BitVec.ofInt 32 width, 0, BitVec.ofNat 32 len⟩
  | .quant len => ⟨0x00000004, 0, 0, BitVec.ofNat 32 len⟩
  | .pack width height len =>
    ⟨0x00000005, BitVec.ofInt 32 width, BitVec.ofNat 32 height, BitVec.ofNat 32 len⟩
  | .enc width height len =>
    ⟨0x00000006, BitVec.ofInt 32 width, BitVec.ofNat 32 height, BitVec.ofNat 32 len⟩

/-- The four bytes of a word, bits 7:0 first (R43). -/
def wordBytes (w : Word) : List Byte :=
  [BitVec.ofNat 8 w.toNat, BitVec.ofNat 8 (w.toNat >>> 8), BitVec.ofNat 8 (w.toNat >>> 16),
    BitVec.ofNat 8 (w.toNat >>> 24)]

/-- The word whose four bytes, bits 7:0 first, are the given ones (R43). -/
def wordOfBytes (b0 b1 b2 b3 : Byte) : Word :=
  BitVec.ofNat 32 (b0.toNat + b1.toNat * 2 ^ 8 + b2.toNat * 2 ^ 16 + b3.toNat * 2 ^ 24)

/-- A descriptor over a byte-wide path: its words in order, each little-endian (R43, R60). -/
def Descriptor.bytes (d : Descriptor) : List Byte := d.words.flatMap wordBytes

/-- The first word of a byte sequence, with the bytes after it. -/
def takeWord : List Byte → Option (Word × List Byte)
  | b0 :: b1 :: b2 :: b3 :: rest => some (wordOfBytes b0 b1 b2 b3, rest)
  | _ => none

/-- The first descriptor of a byte sequence, with the bytes after it. -/
def takeDescriptor (bytes : List Byte) : Option (Descriptor × List Byte) := do
  let (w0, r0) ← takeWord bytes
  let (w1, r1) ← takeWord r0
  let (w2, r2) ← takeWord r1
  let (w3, r3) ← takeWord r2
  return (⟨w0, w1, w2, w3⟩, r3)

/-- Decoding of any byte sequence: the command its first sixteen bytes spell and the bytes after them, or the reason
there is none. -/
def decodeBytes (bytes : List Byte) : Except DecodeError (Instr × List Byte) :=
  match takeDescriptor bytes with
  | none => .error .truncated
  | some (d, rest) =>
    match decode d with
    | .command i => .ok (i, rest)
    | .illegal cause => .error (.illegal cause)
    | .refused => .error .refused

/-- The descriptor whose bits, W0 lowest, are the low `nbits` bits of `w`; every bit above is 0. -/
def descriptorOfNat (nbits w : Nat) : Descriptor :=
  let v := w % 2 ^ nbits
  ⟨BitVec.ofNat 32 v, BitVec.ofNat 32 (v >>> 32), BitVec.ofNat 32 (v >>> 64), BitVec.ofNat 32 (v >>> 96)⟩

/-- What the decoder reads from an instruction whose bits are `w`, numbered as spec/opcode_table.json numbers them,
laid out as bytes in the order of R43. -/
def decodeTableWord (nbits w : Nat) : Option Instr :=
  match decodeBytes (descriptorOfNat nbits w).bytes with
  | .ok (i, _) => some i
  | .error _ => none

end Sys2Proof
end

