-- ==== Sys2Proof/Machine/State.lean ====
section
/-! DEFINITION. The state of the core and its channels as plain data, the reasons a step can stop, and the state after
reset. -/

namespace Sys2Proof.Machine

/-- Outcome codes of a command (R75). The reserved codes 0x02 and 0x06 to 0xFF are never produced and have no
constructor (R181, R187, U10). -/
inductive Status where
  /-- 0x00: the command completed. -/
  | ok
  /-- 0x01: `WIDTH ≤ 0` on DEC, PACK or ENC (R182). -/
  | invalidWidth
  /-- 0x03: the descriptor spells no command (R183). -/
  | illegalCmd
  /-- 0x04: the payload length does not fit the command's shape (R184). -/
  | badLength
  /-- 0x05: an index byte is greater than 3 (R185). -/
  | badIndex
  deriving DecidableEq, Repr

/-- The milestones of the progress hook (R77, R195); there is no encode-start (R196). -/
inductive Milestone where
  /-- 0x01. -/
  | decodeStart
  /-- 0x02. -/
  | decodeDone
  /-- 0x03. -/
  | encodeDone
  deriving DecidableEq, Repr

/-- A pixel, "a 4-tuple (R,G,B,A) of bytes" (R45). -/
structure Pixel where
  r : Byte
  g : Byte
  b : Byte
  a : Byte
  deriving DecidableEq, Repr

/-- What the core answers to one command: the output payload, the events and the response words (R8, R22, R74). -/
structure Reply where
  /-- The output payload `DOUT`. -/
  out : List Byte
  /-- The event list `EV`. -/
  events : List EventRecord
  /-- The response words R0 to R3. -/
  words : List Word
  deriving DecidableEq, Repr

/-- A core-to-host channel: what has been delivered and not yet taken by the host, oldest first, and how many elements
it holds; `none` is a channel without a bound (R28, R40, R217, R218). -/
structure Channel (α : Type) where
  items : List α
  capacity : Option Nat
  deriving DecidableEq, Repr

/-- An answer on its way: what is still to be delivered and how many elements of it have been (R29 "how many output
bytes it has produced"). -/
structure Outgoing where
  /-- Output bytes not yet delivered. -/
  out : List Byte
  /-- Events not yet delivered. -/
  events : List EventRecord
  /-- Response words not yet delivered. -/
  words : List Word
  /-- Output bytes delivered so far. -/
  outSent : Nat
  /-- Events delivered so far. -/
  eventsSent : Nat
  /-- Response words delivered so far. -/
  wordsSent : Nat
  deriving DecidableEq, Repr

/-- A payload byte as it stands on DIN. The byte is all the core reads; `serial` is the model's own and says for which
command the host placed it (log entry 9), so that taking surplus or borrowed bytes can be told (R219, U11). -/
structure PlacedByte where
  value : Byte
  /-- The number of the command it was placed for, counted as `State.serial` counts. -/
  serial : Nat
  deriving DecidableEq, Repr

/-- `Idle` or `Busy(cmd)` (R30). A busy core holds the latched descriptor and the working values of R29: the payload
bytes taken so far, and the answer on its way once the payload is complete. -/
inductive CoreState where
  /-- No command in flight. -/
  | idle
  /-- Busy: the descriptor has been taken and the payload bytes `payload` so far. -/
  | receiving (d : Descriptor) (payload : List Byte)
  /-- Busy: the payload is complete and the answer is being delivered. -/
  | sending (d : Descriptor) (payload : List Byte) (o : Outgoing)
  /-- Busy: surplus or borrowed bytes are among those taken (R219), of which the spec says nothing more until the next
  reset. -/
  | strayed (d : Descriptor) (payload : List PlacedByte)
  deriving DecidableEq, Repr

/-- Everything the spec gives the machine (R28, R30, R210); `serial` and `draws` are the model's own. -/
structure State where
  /-- Idle or busy (R30). -/
  core : CoreState
  /-- CMD: descriptor words placed by the host and not taken by the core, oldest first. -/
  cmd : List Word
  /-- DIN: payload bytes placed by the host and not consumed by the core, oldest first. -/
  din : List PlacedByte
  /-- DOUT: output bytes. -/
  dout : Channel Byte
  /-- EVT: progress events. -/
  evt : Channel EventRecord
  /-- RSP: response words. -/
  rsp : Channel Word
  /-- RST, the reset input, while asserted (R210). -/
  rst : Bool
  /-- The model's own: how many commands have ended, which is the number of the command in flight or, on an idle core,
  of the next one (log entry 9). -/
  serial : Nat
  /-- The model's own: how many free values have been drawn (log entries 4 and 5). -/
  draws : Nat
  deriving DecidableEq, Repr

/-- Why the core could stop with a fault: it never does. A failed command is reported in its response and the core goes
on (R180, R190), and a wait is no fault (R217), so the type has no constructor. Nobody raises it; an empty type is
safe, since no step can end here. -/
inductive Fault where
  deriving DecidableEq, Repr

/-- Why the model gives a step no meaning. -/
inductive Refusal where
  /-- An instruction whose meaning is not written yet. Raised by an arm of `exec` alone; safe. In this model no arm
  raises it. -/
  | notModelled (mnemonic : String)
  /-- A descriptor with `LEN > LMAX`, to which the spec gives no meaning (R10, R73 (d), U9). Raised by `step` when such a
  descriptor is taken; safe. -/
  | lenAboveLmax
  /-- The core has taken payload bytes that the host placed for another command, because the host did not put exactly
  `LEN` bytes on DIN; the spec says nothing of the core's outputs from there to the next reset (R219, U11). Raised by
  `runCommand` on a core in that state; safe. -/
  | strayPayload
  deriving DecidableEq, Repr

/-- The state after RST is released (R32, R211): idle, nothing pending on any channel. The channels' capacity (log
entry 2) and the counts `serial` (log entry 9) and `draws` (log entry 5) are the model's choice. -/
def State.reset : State :=
  { core := .idle, cmd := [], din := [], dout := ⟨[], none⟩, evt := ⟨[], none⟩, rsp := ⟨[], none⟩,
    rst := false, serial := 0, draws := 0 }

end Sys2Proof.Machine
end

