-- ==== Sys2Proof/Machine/Flags.lean ====
section
/-! DEFINITION. What stands in the place of flags. The core has no flags and no condition codes (R25); a command's
outcome is the `STATUS` of its response and, for the two whole operations, the progress events. Their numbers, and the
conditions of the faults, are here. -/

namespace Sys2Proof.Machine

/-- The code of a status (R75). -/
def Status.code : Status → Nat
  | .ok => 0x00
  | .invalidWidth => 0x01
  | .illegalCmd => 0x03
  | .badLength => 0x04
  | .badIndex => 0x05

/-- The `KIND` of a milestone (R77). -/
def Milestone.kind : Milestone → Nat
  | .decodeStart => 0x01
  | .decodeDone => 0x02
  | .encodeDone => 0x03

/-- The percentage a milestone carries (R9, R196). -/
def Milestone.percent (p : Config.Params) : Milestone → Nat
  | .decodeStart => p.pctDecodeStart
  | .decodeDone => p.pctDecodeDone
  | .encodeDone => p.pctEncodeDone

/-- The EVT record of a milestone: `KIND` in bits 7:0, `PCT` in bits 15:8 (R77). -/
def eventRecord (p : Config.Params) (m : Milestone) : EventRecord :=
  BitVec.ofNat 16 (m.kind + m.percent p * 2 ^ 8)

/-- The condition of INVALID_WIDTH: the signed width is zero or negative (R182, R108, R140). -/
def invalidWidth (width : Int) : Bool := decide (width ≤ 0)

/-- The condition of BAD_LENGTH on QUANT: the payload ends inside a pixel (R184). -/
def partialPixel (len : Nat) : Bool := len % 4 != 0

/-- The condition of BAD_LENGTH on PACK (`unit` 1) and ENC (`unit` 4): the payload is not `unit * WIDTH * HEIGHT` bytes,
the product taken over the integers (R141, R184). Used after `WIDTH ≥ 1` is established (R188). -/
def wrongShape (unit width height len : Nat) : Bool := len != unit * width * height

/-- The condition of BAD_INDEX: some byte of the payload, anywhere, is greater than 3 (R185). -/
def badIndex (payload : List Byte) : Bool := payload.any fun b => decide (3 < b.toNat)

end Sys2Proof.Machine
end

