-- ==== Sys2Proof/Machine/Operands.lean ====
section
/-! DEFINITION. The operand forms: how the bytes of a payload are read and written as plane pairs, index bytes and RGBA
pixels (R44, R45, R47), and the counts that the operands determine. The only addressing is sequential (R53). -/

namespace Sys2Proof.Machine

/-- `v[i] = (v >> i) & 1` (R11). -/
def bit (b : Byte) (i : Nat) : Nat := (b.toNat >>> i) &&& 1

/-- The 2-bit value with the given low and high bit: `low | (high << 1)` (R101, R131). -/
def twoBit (low high : Nat) : Byte := BitVec.ofNat 8 (low ||| (high <<< 1))

/-- The bit positions of a plane pair in production order: `for p = 7 downto 0` (R13, R44). -/
def bitPositions : List Nat := [7, 6, 5, 4, 3, 2, 1, 0]

/-- The four bytes of a pixel in tuple order (R45). -/
def Pixel.bytes (px : Pixel) : List Byte := [px.r, px.g, px.b, px.a]

/-- The pixels of an RGBA buffer (R45); bytes after the last whole pixel are no pixel. -/
def readPixels : List Byte → List Pixel
  | r :: g :: b :: a :: rest => ⟨r, g, b, a⟩ :: readPixels rest
  | _ => []

/-- The flat count `N = 8 * floor(LEN / 2)` (R17, R112). -/
def flatCount (len : Nat) : Nat := 8 * (len / 2)

/-- The derived height `rows(N, W) = N div W` (R107). -/
def rows (count width : Nat) : Nat := count / width

/-- `ceil(W / 2) = (W + 1) div 2`, the bytes of a packed row (R12, R136). -/
def rowBytes (width : Nat) : Nat := (width + 1) / 2

end Sys2Proof.Machine
end

