-- ==== Sys2Proof/Machine/Ops.lean ====
section
/-! DEFINITION. The named operations over the state: the channels, forming an answer (the fault outcome of R190 among
them), delivering it, taking the payload, carrying a command to its response, and reset. -/

namespace Sys2Proof.Machine

/-! ### Updates of single fields -/

/-- The state with another core state. -/
def State.withCore (s : State) (c : CoreState) : State := { s with core := c }
/-- The state with other words on CMD. -/
def State.withCmd (s : State) (ws : List Word) : State := { s with cmd := ws }
/-- The state with other bytes on DIN. -/
def State.withDin (s : State) (bs : List PlacedByte) : State := { s with din := bs }
/-- The state with another DOUT channel. -/
def State.withDout (s : State) (c : Channel Byte) : State := { s with dout := c }
/-- The state with another EVT channel. -/
def State.withEvt (s : State) (c : Channel EventRecord) : State := { s with evt := c }
/-- The state with another RSP channel. -/
def State.withRsp (s : State) (c : Channel Word) : State := { s with rsp := c }
/-- The state with RST at another level. -/
def State.withRst (s : State) (level : Bool) : State := { s with rst := level }
/-- The state in which the command in flight has ended: idle, the next command being the next in number. -/
def State.endCommand (s : State) : State := { s with core := .idle, serial := s.serial + 1 }
/-- The state after one more free value has been drawn. -/
def State.drawn (s : State) : State := { s with draws := s.draws + 1 }

/-! ### Channels -/

/-- How many of `n` offered elements the channel has room for (R217). -/
def Channel.accepts {α : Type} (c : Channel α) (n : Nat) : Nat :=
  match c.capacity with
  | none => n
  | some k => min n (k - c.items.length)

/-- The channel has room for `n` more elements. -/
def Channel.hasRoom {α : Type} (c : Channel α) (n : Nat) : Bool := c.accepts n == n

/-- The channel with the elements `xs` behind those it holds (R40). -/
def Channel.put {α : Type} (c : Channel α) (xs : List α) : Channel α := { c with items := c.items ++ xs }

/-- The channel after the host has taken its `n` oldest elements (R40). -/
def Channel.take {α : Type} (c : Channel α) (n : Nat) : Channel α := { c with items := c.items.drop n }

/-- The channel when reset cuts short a command that had delivered `sent` elements on it: those not yet taken by the
host give way to `stale`, as far as there is room (R212; log entry 5). -/
def Channel.abandon {α : Type} (c : Channel α) (sent : Nat) (stale : List α) : Channel α :=
  let kept := { c with items := c.items.take (c.items.length - sent) }
  kept.put (stale.take (kept.accepts stale.length))

/-! ### Answers -/

/-- The response words R0 to R3 (R74). -/
def responseWords (st : Status) (ow oh olen : Nat) : List Word :=
  [BitVec.ofNat 32 st.code, BitVec.ofNat 32 ow, BitVec.ofNat 32 oh, BitVec.ofNat 32 olen]

/-- A command that ends with OK (R42, R76). -/
def okReply (ow oh olen : Nat) (out : List Byte) (events : List EventRecord) : Reply :=
  ⟨out, events, responseWords .ok ow oh olen⟩

/-- THE fault outcome, for every fault status: no output byte, no event, every response word but `STATUS` zero (R190).
Nothing is saved and no handler runs, so there is no return from it (R191). -/
def faultReply (st : Status) : Reply := ⟨[], [], responseWords st 0 0 0⟩

/-- An answer of which nothing has been delivered. -/
def Reply.start (r : Reply) : Outgoing := ⟨r.out, r.events, r.words, 0, 0, 0⟩

/-! ### Delivering an answer -/

/-- Every output byte and event has been delivered. -/
def Outgoing.outputDone (o : Outgoing) : Bool := o.out.isEmpty && o.events.isEmpty

/-- The whole response has been delivered (R223). -/
def Outgoing.done (o : Outgoing) : Bool := o.outputDone && o.words.isEmpty

/-- Deliver the first `n` output bytes that are left. -/
def State.sendBytes (s : State) (o : Outgoing) (n : Nat) : State × Outgoing :=
  (s.withDout (s.dout.put (o.out.take n)), { o with out := o.out.drop n, outSent := o.outSent + (o.out.take n).length })

/-- Deliver the first `n` events that are left. -/
def State.sendEvents (s : State) (o : Outgoing) (n : Nat) : State × Outgoing :=
  (s.withEvt (s.evt.put (o.events.take n)),
    { o with events := o.events.drop n, eventsSent := o.eventsSent + (o.events.take n).length })

/-- Deliver the first `n` response words that are left. -/
def State.sendWords (s : State) (o : Outgoing) (n : Nat) : State × Outgoing :=
  (s.withRsp (s.rsp.put (o.words.take n)),
    { o with words := o.words.drop n, wordsSent := o.wordsSent + (o.words.take n).length })

/-- Deliver output bytes and events one at a time, at most `fuel` of them, while the channels have room. Where bytes
and events are both left, which goes next is a free choice, since no order is promised between DOUT and EVT (R54 (d),
R197; log entry 4); the core waits when the chosen one finds no room (R217). -/
def sendInterleaved : Nat → State → Outgoing → State × Outgoing
  | 0, s, o => (s, o)
  | fuel + 1, s, o =>
    match o.out, o.events with
    | [], [] => (s, o)
    | _ :: _, [] =>
      if s.dout.hasRoom 1 then sendInterleaved fuel (s.sendBytes o 1).1 (s.sendBytes o 1).2 else (s, o)
    | [], _ :: _ =>
      if s.evt.hasRoom 1 then sendInterleaved fuel (s.sendEvents o 1).1 (s.sendEvents o 1).2 else (s, o)
    | _ :: _, _ :: _ =>
      if Config.eventFirst s.draws then
        if s.evt.hasRoom 1 then sendInterleaved fuel (s.sendEvents o 1).1.drawn (s.sendEvents o 1).2 else (s.drawn, o)
      else
        if s.dout.hasRoom 1 then sendInterleaved fuel (s.sendBytes o 1).1.drawn (s.sendBytes o 1).2 else (s.drawn, o)

/-- Deliver output bytes and events: all of them when both channels have room for all, as far as the room goes
otherwise. -/
def sendOutput (s : State) (o : Outgoing) : State × Outgoing :=
  if s.dout.hasRoom o.out.length && s.evt.hasRoom o.events.length then
    let (s₁, o₁) := s.sendBytes o o.out.length
    s₁.sendEvents o₁ o₁.events.length
  else sendInterleaved (o.out.length + o.events.length) s o

/-- Deliver response words as far as RSP has room, once every output byte and event has been delivered (R54 (c)). -/
def sendResponse (s : State) (o : Outgoing) : State × Outgoing :=
  if o.outputDone then s.sendWords o (s.rsp.accepts o.words.length) else (s, o)

/-- Deliver as much of the answer as the channels have room for. The core is idle again when the fourth response word
has been delivered (R223), and otherwise stays busy with what is left (R217). -/
def State.deliver (s : State) (d : Descriptor) (payload : List Byte) (o : Outgoing) : State :=
  let (s₁, o₁) := sendOutput s o
  let (s₂, o₂) := sendResponse s₁ o₁
  if o₂.done then s₂.endCommand else s₂.withCore (.sending d payload o₂)

/-! ### Carrying a command to its response -/

/-- A payload byte placed for command number `serial`. -/
def placedFor (serial : Nat) (b : Byte) : PlacedByte := ⟨b, serial⟩

/-- Every one of the `n` oldest bytes on DIN (as far as there are so many) was placed for the command in flight, or, on
an idle core, for the next one. Bytes placed ahead under the next command's number are its own even after a reset, by
the model's choice (log entry 20). -/
def State.ownsBytes (s : State) (n : Nat) : Bool := (s.din.take n).all fun b => b.serial == s.serial

/-- Take payload bytes from DIN, in order, up to `len` in all (R41). While some are missing the core waits (R217); when
the payload is complete, deliver the answer `respond` gives it. Surplus bytes of an earlier payload and bytes of a later
one are taken like any others (R219), but from then on the core is astray. -/
def State.receive (s : State) (d : Descriptor) (len : Nat) (respond : List Byte → Reply) (payload : List Byte) :
    State :=
  let taken := s.din.take (len - payload.length)
  let payload' := payload ++ taken.map (·.value)
  let s' := s.withDin (s.din.drop (len - payload.length))
  if !s.ownsBytes (len - payload.length) then s'.withCore (.strayed d (payload.map (placedFor s.serial) ++ taken))
  else if payload'.length < len then s'.withCore (.receiving d payload')
  else s'.deliver d payload' (respond payload').start

/-- Carry a command with descriptor `d` and payload length `len` as far as the channels let it. On an idle core it
starts; on a core that is receiving it takes more payload; on a core with an answer on its way it goes on delivering
that answer, since nothing else is done before it is delivered (R24). A core that has taken bytes of another payload is
refused: "From the first such violation on, this spec says nothing about the core's outputs until the next reset"
(R219, U11; log entry 9). -/
def runCommand (d : Descriptor) (len : Nat) (respond : List Byte → Reply) (s : State) :
    Host.Outcome State Fault Refusal :=
  match s.core with
  | .idle => .next (s.receive d len respond [])
  | .receiving d' payload => .next (s.receive d' len respond payload)
  | .sending d' payload o => .next (s.deliver d' payload o)
  | .strayed _ _ => .refused .strayPayload

/-- A descriptor that is illegal: its `LEN` payload bytes are consumed all the same and the answer is ILLEGAL_CMD
(R41, R65, R183). -/
def execIllegal (d : Descriptor) (s : State) : Host.Outcome State Fault Refusal :=
  runCommand d d.len (fun _ => faultReply .illegalCmd) s

/-! ### Fetching a descriptor -/

/-- The descriptor the core works on, with the state in which it has been taken: a busy core keeps the one it has
latched, an idle core takes the next four words of CMD (R24, R30, R60). `none` while fewer than four words stand on
CMD: a descriptor is taken as a whole (R61), and the core waits for it (R217). -/
def fetch (s : State) : Option (Descriptor × State) :=
  match s.core with
  | .receiving d _ => some (d, s)
  | .sending d _ _ => some (d, s)
  | .strayed d _ => some (d, s)
  | .idle =>
    match s.cmd with
    | w0 :: w1 :: w2 :: w3 :: rest =>
      some (⟨w0, w1, w2, w3⟩, (s.withCmd rest).withCore (.receiving ⟨w0, w1, w2, w3⟩ []))
    | _ => none

/-! ### Reset -/

/-- A busy core when RST is asserted: the command is abandoned without a response descriptor. What it had produced on
DOUT and EVT has no defined meaning, so free values stand there, and a free count, at most `LEN`, of its payload bytes
has been consumed. Of the response fewer than four words had been delivered; those the host has not taken give way to at
most as many free ones, so that with those it has taken there never are four (R212; log entry 5). -/
def State.abandon (s : State) (d : Descriptor) (payload : List PlacedByte) (outSent eventsSent wordsSent : Nat) : State :=
  let n := s.draws
  { s with
    core := .idle
    din := (payload ++ s.din).drop (min (Config.abandonedConsumed n) d.len)
    dout := s.dout.abandon outSent (Config.abandonedBytes n)
    evt := s.evt.abandon eventsSent (Config.abandonedEvents n)
    rsp := s.rsp.abandon wordsSent ((Config.abandonedWords n).take (min wordsSent s.rsp.items.length))
    serial := s.serial + 1
    draws := n + 1 }

/-- RST asserted: the core enters `Idle`, whatever it was doing (R211, R212). How far a core that is astray has got by then
the spec leaves open (R219): that it has answered nothing, taken no further descriptor and consumed at most `LEN` bytes
is the model's choice (log entry 19). So is that a byte left on DIN keeps its number: it is stale if that is the number of
the command abandoned or of one before it, and the payload of a later command otherwise (log entry 20). -/
def State.resetCore (s : State) : State :=
  match s.core with
  | .idle => s
  | .receiving d payload => s.abandon d (payload.map (placedFor s.serial)) 0 0 0
  | .sending d payload o =>
    s.abandon d (payload.map (placedFor s.serial)) o.outSent o.eventsSent o.wordsSent
  | .strayed d payload => s.abandon d payload 0 0 0

end Sys2Proof.Machine
end

