-- ==== Sys2Proof/Machine/DecodePath.lean ====
section
/-! DEFINITION. The decode path: UNPACK, EXPAND and DEC (40_decode_path). -/

namespace Sys2Proof.Machine

/-- The pixel index of one bit position of a plane pair: byte0 supplies the low bit, byte1 the high bit (R101, R103). -/
def planeIndex (b0 b1 : Byte) (p : Nat) : Byte := twoBit (bit b0 p) (bit b1 p)

/-- The function `unpack` (R101): bytes taken two at a time, eight indices from each pair, bit 7 first; an odd trailing
byte is ignored. -/
def unpack : List Byte → List Byte
  | b0 :: b1 :: rest => bitPositions.map (planeIndex b0 b1) ++ unpack rest
  | _ => []

/-- The function `expand` (R104). -/
def expand (i : Byte) : Pixel :=
  ⟨BitVec.ofNat 8 (85 * i.toNat), BitVec.ofNat 8 (85 * i.toNat), BitVec.ofNat 8 (85 * i.toNat), 255⟩

/-- The RGBA buffer of a sequence of indices (R45, R104). -/
def expandAll (indices : List Byte) : List Byte := indices.flatMap fun i => (expand i).bytes

/-- What UNPACK answers (R102). -/
def unpackReply (len : Nat) (din : List Byte) : Reply :=
  okReply 0 0 (8 * (len / 2)) (unpack din) []

/-- What EXPAND answers (R106). -/
def expandReply (len : Nat) (din : List Byte) : Reply :=
  if badIndex din then faultReply .badIndex
  else okReply 0 0 (4 * len) (expandAll din) []

/-- What DEC answers (R110): the first `WIDTH * H` pixels of the flat sequence, `H` being the derived height. -/
def decReply (p : Config.Params) (width : Int) (len : Nat) (din : List Byte) : Reply :=
  if invalidWidth width then faultReply .invalidWidth
  else
    let w := width.toNat
    let h := rows (flatCount len) w
    okReply w h (4 * (w * h)) (expandAll ((unpack din).take (w * h)))
      [eventRecord p .decodeStart, eventRecord p .decodeDone]

/-- UNPACK (R102). -/
def execUnpack (len : Nat) (s : State) : Host.Outcome State Fault Refusal :=
  runCommand (encode (.unpack len)) len (unpackReply len) s

/-- EXPAND (R106). -/
def execExpand (len : Nat) (s : State) : Host.Outcome State Fault Refusal :=
  runCommand (encode (.expand len)) len (expandReply len) s

/-- DEC (R110). -/
def execDec (width : Int) (len : Nat) (s : State) : Host.Outcome State Fault Refusal :=
  runCommand (encode (.dec width len)) len (decReply Config.hardware width len) s

end Sys2Proof.Machine
end

