-- ==== Sys2Proof/Machine/EncodePath.lean ====
section
/-! DEFINITION. The encode path: QUANT, PACK and ENC (41_encode_path). -/

namespace Sys2Proof.Machine

/-- The plane bit of a channel: `q1(c) = (c div 85) & 1`, truncating (R16, R131). -/
def q1 (c : Byte) : Nat := (c.toNat / 85) &&& 1

/-- The quantised value of a pixel (R131): R supplies bit 0 and G bit 1; B and A are not read (R132). -/
def quant (px : Pixel) : Byte := twoBit (q1 px.r) (q1 px.g)

/-- The synthetic right pixel that pairs with the last pixel of a row of odd width (R134). -/
def syntheticRight : Pixel := ⟨0, 0, 0, 255⟩

/-- The packed byte of a pair, `(left << 4) | right` (R137). -/
def packByte (left right : Byte) : Byte := BitVec.ofNat 8 ((left.toNat <<< 4) ||| right.toNat)

/-- The bytes of one row: left to right, two elements at a time, a last unpaired element with `pad` at its right
(R134). `value` gives an element's 2-bit value. -/
def packRow {α : Type} (value : α → Byte) (pad : α) : List α → List Byte
  | left :: right :: rest => packByte (value left) (value right) :: packRow value pad rest
  | [left] => [packByte (value left) (value pad)]
  | [] => []

/-- The bytes of `height` rows of `width` elements, row by row, no byte shared by two rows (R135, R138). -/
def packRows {α : Type} (value : α → Byte) (pad : α) (width : Nat) : Nat → List α → List Byte
  | 0, _ => []
  | height + 1, image =>
    packRow value pad (image.take width) ++ packRows value pad width height (image.drop width)

/-- The function `pack` (R138). -/
def pack (values : List Byte) (width height : Nat) : List Byte := packRows id 0 width height values

/-- What QUANT answers (R133). -/
def quantReply (len : Nat) (din : List Byte) : Reply :=
  if partialPixel len then faultReply .badLength
  else okReply 0 0 (len / 4) ((readPixels din).map quant) []

/-- What PACK answers (R139), the faults in the order of R188. -/
def packReply (width : Int) (height len : Nat) (din : List Byte) : Reply :=
  if invalidWidth width then faultReply .invalidWidth
  else if wrongShape 1 width.toNat height len then faultReply .badLength
  else if badIndex din then faultReply .badIndex
  else okReply 0 0 (height * rowBytes width.toNat) (pack din width.toNat height) []

/-- What ENC answers (R142), the faults in the order of R188. -/
def encReply (p : Config.Params) (width : Int) (height len : Nat) (din : List Byte) : Reply :=
  if invalidWidth width then faultReply .invalidWidth
  else if wrongShape 4 width.toNat height len then faultReply .badLength
  else okReply 0 0 (height * rowBytes width.toNat)
    (packRows quant syntheticRight width.toNat height (readPixels din)) [eventRecord p .encodeDone]

/-- QUANT (R133). -/
def execQuant (len : Nat) (s : State) : Host.Outcome State Fault Refusal :=
  runCommand (encode (.quant len)) len (quantReply len) s

/-- PACK (R139). -/
def execPack (width : Int) (height len : Nat) (s : State) : Host.Outcome State Fault Refusal :=
  runCommand (encode (.pack width height len)) len (packReply width height len) s

/-- ENC (R142). -/
def execEnc (width : Int) (height len : Nat) (s : State) : Host.Outcome State Fault Refusal :=
  runCommand (encode (.enc width height len)) len (encReply Config.hardware width height len) s

end Sys2Proof.Machine
end

