-- ==== Sys2Proof/Machine/Dispatch.lean ====
section
/-! DEFINITION. One arm per command (R66). -/

namespace Sys2Proof.Machine

def exec (i : Instr) (s : State) : Host.Outcome State Fault Refusal :=
  match i with
  | .unpack len => Sys2Proof.Machine.execUnpack len s
  | .expand len => Sys2Proof.Machine.execExpand len s
  | .dec width len => Sys2Proof.Machine.execDec width len s
  | .quant len => Sys2Proof.Machine.execQuant len s
  | .pack width height len => Sys2Proof.Machine.execPack width height len s
  | .enc width height len => Sys2Proof.Machine.execEnc width height len s

end Sys2Proof.Machine
end

