-- ==== Sys2Proof/Machine/Step.lean ====
section
/-! DEFINITION. One step of the core. -/

namespace Sys2Proof.Machine

/-- One step: under RST the core is idle (R211); otherwise it works on the descriptor it holds or takes the next one
(R24), and with none to take it waits, which changes nothing (R217; log entry 1). A descriptor that spells a command is
that command's `exec`; an illegal one is answered ILLEGAL_CMD; `LEN > LMAX` is refused (R65, R73).
Asserting RST ends every wait and the refusal of a core that is astray (R217, R219). -/
def step (s : State) : Host.Outcome State Fault Refusal :=
  if s.rst then .next s.resetCore
  else match fetch s with
    | none => .next s
    | some (d, t) =>
      match decode d with
      | .command i => exec i t
      | .illegal _ => execIllegal d t
      | .refused => .refused .lenAboveLmax

/-- The state with the descriptor whose bits are the low `nbits` bits of `w` at the head of CMD, on an idle core with
RST released, so that the next step takes it (log entry 10). -/
def State.withFetchWord (s : State) (nbits w : Nat) : State :=
  { s with core := .idle, rst := false, cmd := (descriptorOfNat nbits w).words ++ s.cmd }

end Sys2Proof.Machine
end

