-- ==== Sys2Proof/Machine/HostPort.lean ====
section
/-! DEFINITION. What the host may do to the machine (R212, R215, R221), as functions on the state, and the commands it
writes (R79, R80). None of these is a step of the core. -/

namespace Sys2Proof.Machine

/-- A command as the host issues it: a descriptor together with its input payload (R61). R79 bounds neither `<int>` nor
`<nat>` nor the list of bytes; in the forms below a width, height or number of bytes that its field cannot carry goes into
the descriptor modulo 2^32, by the model's choice (log entry 21). -/
structure Command where
  desc : Descriptor
  payload : List Byte
  deriving DecidableEq, Repr

/-- `UNPACK <bytes>` (R79; `LEN` is the number of bytes listed). -/
def Command.unpack (bytes : List Byte) : Command := ⟨encode (.unpack bytes.length), bytes⟩
/-- `EXPAND <bytes>`. -/
def Command.expand (bytes : List Byte) : Command := ⟨encode (.expand bytes.length), bytes⟩
/-- `DEC w=<int>, <bytes>`. -/
def Command.dec (w : Int) (bytes : List Byte) : Command := ⟨encode (.dec w bytes.length), bytes⟩
/-- `QUANT <bytes>`. -/
def Command.quant (bytes : List Byte) : Command := ⟨encode (.quant bytes.length), bytes⟩
/-- `PACK w=<int>, h=<nat>, <bytes>`. -/
def Command.pack (w : Int) (h : Nat) (bytes : List Byte) : Command := ⟨encode (.pack w h bytes.length), bytes⟩
/-- `ENC w=<int>, h=<nat>, <bytes>`. -/
def Command.enc (w : Int) (h : Nat) (bytes : List Byte) : Command := ⟨encode (.enc w h bytes.length), bytes⟩
/-- `.desc <W0>, <W1>, <W2>, <W3>, <bytes>`, the raw form. -/
def Command.raw (w0 w1 w2 w3 : Word) (bytes : List Byte) : Command := ⟨⟨w0, w1, w2, w3⟩, bytes⟩

/-- `indicesToRGBA(I)` (R80). -/
abbrev Command.indicesToRGBA (indices : List Byte) : Command := .expand indices
/-- `decodeToRGBA(P, w)` (R80). -/
abbrev Command.decodeToRGBA (packed : List Byte) (w : Int) : Command := .dec w packed
/-- `quantize(X)` (R80). -/
abbrev Command.quantize (rgba : List Byte) : Command := .quant rgba
/-- `encodeFromRGBA(image)` for an image of shape `w × h` (R80). -/
abbrev Command.encodeFromRGBA (w : Int) (h : Nat) (rgba : List Byte) : Command := .enc w h rgba
/-- `decode(P)` (R80). -/
abbrev Command.decode (packed : List Byte) : Command := .unpack packed
/-- `encode(I)` for an image of shape `w × h` (R80). -/
abbrev Command.encode (w : Int) (h : Nat) (indices : List Byte) : Command := .pack w h indices

/-- The host places words on CMD, behind those that stand there: a whole descriptor or part of one. That words may come
without the payload they go with is the model's reading (log entry 18). -/
def State.hostPlaceWords (s : State) (ws : List Word) : State := s.withCmd (s.cmd ++ ws)

/-- The host places payload bytes on DIN, behind those that stand there, for command number `serial`: a whole payload or
part of one, before its descriptor or after it. The spec ties the two in no order of time and R217 has the core wait for
bytes that have not arrived; that all these orders are open to the host is the model's choice (log entry 18). -/
def State.hostPlacePayload (s : State) (serial : Nat) (bytes : List Byte) : State :=
  s.withDin (s.din ++ bytes.map (placedFor serial))

/-- The number of the next command whose descriptor the host begins to place: those that have ended, the one in flight
and those on CMD come before it. A reset abandons one command and renumbers none, by the model's choice (log entry
20). -/
def State.nextSerial (s : State) : Nat :=
  s.serial + (match s.core with | .idle => 0 | _ => 1) + s.cmd.length / 4

/-- The host issues a command in one act: its words go behind those on CMD and its payload behind the bytes on DIN. It
may do so ahead of time (R215, R221). Placing both together is only one of the host's ways, the model's shorthand for
`hostPlaceWords` and `hostPlacePayload` at once (log entry 18). -/
def State.hostIssue (s : State) (c : Command) : State :=
  (s.hostPlaceWords c.desc.words).hostPlacePayload s.nextSerial c.payload

/-- The host takes the `n` oldest bytes from DOUT. -/
def State.hostTakeDout (s : State) (n : Nat) : State := s.withDout (s.dout.take n)
/-- The host takes the `n` oldest records from EVT. -/
def State.hostTakeEvt (s : State) (n : Nat) : State := s.withEvt (s.evt.take n)
/-- The host takes the `n` oldest words from RSP. -/
def State.hostTakeRsp (s : State) (n : Nat) : State := s.withRsp (s.rsp.take n)

/-- The host drives RST (R210, R221: "reset at any time"). -/
def State.hostReset (s : State) (level : Bool) : State := s.withRst level

/-- The host empties all five channels, as it must before the first command after reset (R212). -/
def State.hostFlush (s : State) : State :=
  ((((s.withCmd []).withDin []).withDout (s.dout.take s.dout.items.length)).withEvt
    (s.evt.take s.evt.items.length)).withRsp (s.rsp.take s.rsp.items.length)

end Sys2Proof.Machine
end

