-- ==== Sys2Proof/Safety.lean ====
section
/-! DEFINITION. The terms in which statements about the machine are made: a command's answer as one function, when a
state can carry a command to its end and the state in which it ends, the invariant of the machine, and a host that
takes what is delivered after every step. -/

namespace Sys2Proof.Machine

/-! ### The answer of a command -/

/-- What a command answers to its payload, with the parameters `p` (R19: a function of the command alone). -/
def replyFor (p : Config.Params) : Instr → List Byte → Reply
  | .unpack len, din => unpackReply len din
  | .expand len, din => expandReply len din
  | .dec width len, din => decReply p width len din
  | .quant len, din => quantReply len din
  | .pack width height len, din => packReply width height len din
  | .enc width height len, din => encReply p width height len din

/-- What the core answers to a descriptor and its payload; `none` where the spec gives the descriptor no meaning. -/
def answer (d : Descriptor) (din : List Byte) : Option Reply :=
  match decode d with
  | .command i => some (replyFor Config.hardware i din)
  | .illegal _ => some (faultReply .illegalCmd)
  | .refused => none

/-- `STATUS`, bits 7:0 of R0 (R74). -/
def Reply.status (r : Reply) : Nat := bitField (r.words.getD 0 0).toNat 7 0

/-! ### Completing a command -/

/-- The payload bytes that the command in flight has taken; none on an idle core. -/
def State.received (s : State) : List Byte :=
  match s.core with
  | .receiving _ payload => payload
  | _ => []

/-- The core takes payload: it is idle, or receiving. -/
def State.takesInput (s : State) : Bool :=
  match s.core with
  | .idle => true
  | .receiving _ _ => true
  | _ => false

/-- The `n` oldest bytes on DIN, as the core reads them. -/
def State.nextBytes (s : State) (n : Nat) : List Byte := (s.din.take n).map (·.value)

/-- The next `n` payload bytes stand on DIN, placed for this very command, as R219 has the host do. -/
abbrev State.payloadReady (s : State) (n : Nat) : Prop := n ≤ s.din.length ∧ s.ownsBytes n = true

/-- The core has an answer on its way. -/
def State.isSending (s : State) : Bool :=
  match s.core with
  | .sending _ _ _ => true
  | _ => false

/-- The core can take a payload of `len` bytes to its end: it takes payload, and the bytes it has not taken yet stand on
DIN, placed for this command. -/
abbrev State.accepting (s : State) (len : Nat) : Prop :=
  s.takesInput = true ∧ s.received.length ≤ len ∧ s.payloadReady (len - s.received.length)

/-- The payload `DIN[0 .. len)` of the command being carried out. -/
def State.payload (s : State) (len : Nat) : List Byte := s.received ++ s.nextBytes (len - s.received.length)

/-- The output channels have room for so many output bytes and events and for a response. -/
abbrev State.hasRoomFor (s : State) (bytes events : Nat) : Prop :=
  s.dout.hasRoom bytes = true ∧ s.evt.hasRoom events = true ∧ s.rsp.hasRoom 4 = true

/-- The state when a command of payload length `len` has ended with the answer `r`: idle, the payload consumed, the
output bytes, events and response words delivered, all else as it was (R41, R42, R223). -/
def State.finish (s : State) (len : Nat) (r : Reply) : State :=
  { s with
    core := .idle
    serial := s.serial + 1
    din := s.din.drop (len - s.received.length)
    dout := s.dout.put r.out
    evt := s.evt.put r.events
    rsp := s.rsp.put r.words }

/-! ### The invariant -/

/-- The channel holds no more than it can. -/
def Channel.within {α : Type} (c : Channel α) : Bool :=
  match c.capacity with
  | none => true
  | some k => decide (c.items.length ≤ k)

/-- What a busy core holds belongs to its command: a receiving core lacks payload, and what a sending core has still to
deliver is the rest of the one answer that the descriptor and payload have (R30), no response word going before the
output is delivered (R54 (c)); a core that is astray holds a byte placed for a command other than its own, number
`serial` (R219). -/
def CoreState.Inv (serial : Nat) : CoreState → Prop
  | .idle => True
  | .receiving d payload => payload.length < d.len ∧ decode d ≠ .refused
  | .sending d payload o =>
    payload.length = d.len ∧ o.done = false ∧ (o.wordsSent = 0 ∨ o.outputDone = true) ∧
    ∃ r, answer d payload = some r ∧
      o.outSent ≤ r.out.length ∧ o.out = r.out.drop o.outSent ∧
      o.eventsSent ≤ r.events.length ∧ o.events = r.events.drop o.eventsSent ∧
      o.wordsSent ≤ r.words.length ∧ o.words = r.words.drop o.wordsSent
  | .strayed d payload =>
    payload.length ≤ d.len ∧ decode d ≠ .refused ∧ ∃ b, b ∈ payload ∧ b.serial ≠ serial

/-- The invariant of the machine. -/
def State.Inv (s : State) : Prop :=
  s.core.Inv s.serial ∧ s.dout.within = true ∧ s.evt.within = true ∧ s.rsp.within = true

/-! ### A host that keeps R219 -/

/-- For whom the payload bytes of the descriptors on CMD are to be placed, byte by byte, the first descriptor being that
of command number `n`: exactly `LEN` bytes for each (R219). -/
def serialsFor : Nat → List Word → List Nat
  | n, _ :: _ :: _ :: w3 :: rest => List.replicate w3.toNat n ++ serialsFor (n + 1) rest
  | _, _ => []

/-- For whom the bytes that the core has still to take are to be placed: the rest of the payload of the command in
flight, and then those of the descriptors on CMD. -/
def State.dueSerials (s : State) : List Nat :=
  match s.core with
  | .idle => serialsFor s.serial s.cmd
  | .receiving d payload => List.replicate (d.len - payload.length) s.serial ++ serialsFor (s.serial + 1) s.cmd
  | _ => serialsFor (s.serial + 1) s.cmd

/-- For whom the bytes on DIN have been placed. -/
def State.placedSerials (s : State) : List Nat := s.din.map (·.serial)

/-- The core is not astray. -/
def State.onCourse (s : State) : Bool :=
  match s.core with
  | .strayed _ _ => false
  | _ => true

/-- The host has kept R219 so far: no stray byte has been taken, and those on DIN are the first of the bytes due. -/
def State.disciplined (s : State) : Prop := s.onCourse = true ∧ s.placedSerials <+: s.dueSerials

/-- For whom the bytes due that the host has not placed yet are to be placed, while it keeps R219. -/
def State.missingSerials (s : State) : List Nat := s.dueSerials.drop s.placedSerials.length

/-- The host has kept R219 and placed every byte due. -/
def State.supplied (s : State) : Prop := s.onCourse = true ∧ s.placedSerials = s.dueSerials

/-! ### What is still to be delivered -/

/-- Output bytes of the command in flight that have not been delivered. -/
def State.pendingOut (s : State) : List Byte :=
  match s.core with
  | .sending _ _ o => o.out
  | _ => []

/-- Events of the command in flight that have not been delivered. -/
def State.pendingEvents (s : State) : List EventRecord :=
  match s.core with
  | .sending _ _ o => o.events
  | _ => []

/-- Response words of the command in flight that have not been delivered. -/
def State.pendingWords (s : State) : List Word :=
  match s.core with
  | .sending _ _ o => o.words
  | _ => []

/-- The channel can hold at least one element. -/
def Channel.usable {α : Type} (c : Channel α) : Bool :=
  match c.capacity with
  | none => true
  | some k => decide (1 ≤ k)

/-! ### A host that drains the output channels -/

/-- `n` steps of the core, the host taking everything from DOUT, EVT and RSP after each (R218), with what it has taken;
`none` if a step gives no next state. -/
def drainRun : Nat → State → Reply → Option (State × Reply)
  | 0, s, got => some (s, got)
  | n + 1, s, got =>
    match step s with
    | .next t =>
      drainRun n
        (((t.hostTakeDout t.dout.items.length).hostTakeEvt t.evt.items.length).hostTakeRsp t.rsp.items.length)
        ⟨got.out ++ t.dout.items, got.events ++ t.evt.items, got.words ++ t.rsp.items⟩
    | _ => none

end Sys2Proof.Machine
end

