-- ==== Sys2Proof/Certificates/Slice0/Obligations.lean ====
section
/-! DEFINITION. The statements for the provers, with the spec's own formulas they are made of. -/

/-! ### The rules' formulas, over the integers -/

namespace Sys2Proof.Rules

/-- `sext_32(w)` as R14 gives it: `w` if `w < 2^31`, else `w - 2^32`. -/
def signedAt (w : Word) : Int := if w.toNat < 2147483648 then (w.toNat : Int) else (w.toNat : Int) - 4294967296

/-- `P[k]` as a number; 0 outside the sequence. -/
def byteAt (P : List Byte) (k : Nat) : Nat := (P.getD k 0).toNat

/-- `unpack(P)[j]` as R101 gives it. -/
def indexAt (P : List Byte) (j : Nat) : Nat :=
  ((byteAt P (2 * (j / 8)) >>> (7 - j % 8)) &&& 1) ||| (((byteAt P (2 * (j / 8) + 1) >>> (7 - j % 8)) &&& 1) <<< 1)

/-- The quantised value of channel values `R` and `G` as R131 gives it. -/
def quantValue (R G : Nat) : Nat := ((R / 85) &&& 1) ||| (((G / 85) &&& 1) <<< 1)

/-- The quantised value of pixel `j` of an RGBA buffer (R45, R131). -/
def quantAt (X : List Byte) (j : Nat) : Nat := quantValue (byteAt X (4 * j)) (byteAt X (4 * j + 1))

/-- The packed byte of column pair `c` of row `y` of an image of width `W` with 2-bit values `value j` (R134, R138). -/
def packedAt (value : Nat → Nat) (W y c : Nat) : Nat :=
  (value (y * W + 2 * c) <<< 4) ||| (if 2 * c + 1 < W then value (y * W + 2 * c + 1) else 0)

/-- `out` is the RGBA buffer of `count` pixels of which pixel `j` is `(grey j, grey j, grey j, 255)` (R45, R104). -/
def greyBuffer (out : List Byte) (count : Nat) (grey : Nat → Nat) : Prop :=
  out.length = 4 * count ∧ ∀ j, j < count →
    out.getD (4 * j) 0 = BitVec.ofNat 8 (grey j) ∧ out.getD (4 * j + 1) 0 = BitVec.ofNat 8 (grey j) ∧
    out.getD (4 * j + 2) 0 = BitVec.ofNat 8 (grey j) ∧ out.getD (4 * j + 3) 0 = 255

/-- `out` is the packed buffer, in the encode-path layout, of an image of `H` rows of `W` values (R48, R138). -/
def packedBuffer (out : List Byte) (value : Nat → Nat) (W H : Nat) : Prop :=
  out.length = H * ((W + 1) / 2) ∧ ∀ y c, y < H → c < (W + 1) / 2 →
    out.getD (y * ((W + 1) / 2) + c) 0 = BitVec.ofNat 8 (packedAt value W y c)

/-- The four words spell no command: R73 (a), (b), (c), by the opcode map R66 and the table of R64. -/
def isIllegal (d : Descriptor) : Prop :=
  d.w0.toNat = 0 ∨ 6 < d.w0.toNat ∨
  ((d.w0.toNat = 1 ∨ d.w0.toNat = 2 ∨ d.w0.toNat = 4) ∧ (d.w1 ≠ 0 ∨ d.w2 ≠ 0)) ∨ (d.w0.toNat = 3 ∧ d.w2 ≠ 0)

/-- The cause of INVALID_WIDTH: DEC, PACK or ENC with `W1 = 0` or `W1 ≥ 0x80000000` (R182). -/
def hasBadWidth (d : Descriptor) : Prop :=
  (d.w0.toNat = 3 ∨ d.w0.toNat = 5 ∨ d.w0.toNat = 6) ∧ (d.w1.toNat = 0 ∨ 0x80000000 ≤ d.w1.toNat)

/-- The cause of BAD_LENGTH, with exact products (R184). -/
def hasBadLength (d : Descriptor) : Prop :=
  (d.w0.toNat = 4 ∧ d.w3.toNat % 4 ≠ 0) ∨ (d.w0.toNat = 5 ∧ d.w3.toNat ≠ d.w1.toNat * d.w2.toNat) ∨
  (d.w0.toNat = 6 ∧ d.w3.toNat ≠ 4 * d.w1.toNat * d.w2.toNat)

/-- The cause of BAD_INDEX (R185). -/
def hasBadIndex (d : Descriptor) (P : List Byte) : Prop :=
  (d.w0.toNat = 2 ∨ d.w0.toNat = 5) ∧ ∃ k, k < P.length ∧ 3 < byteAt P k

/-- The plane-0 bit of flat pixel `j`: `a[j]` of R165. -/
def planeZero (P : List Byte) (j : Nat) : Nat := (byteAt P (2 * (j / 8)) >>> (7 - j % 8)) &&& 1

end Sys2Proof.Rules

namespace Sys2Proof.Machine

/-- What DEC answers to `P` with width `w`, the first command of R164. -/
def roundTripImage (P : List Byte) (w : Nat) : List Byte := (decReply Config.hardware w P.length P).out

/-- The height DEC derives (R107, R164). -/
def roundTripHeight (P : List Byte) (w : Nat) : Nat := 8 * (P.length / 2) / w

/-- What ENC answers to the image that DEC made of `P`: the result `E` of R164. -/
def roundTrip (P : List Byte) (w : Nat) : Reply :=
  encReply Config.hardware w (roundTripHeight P w) (roundTripImage P w).length (roundTripImage P w)

end Sys2Proof.Machine

open Sys2Proof Sys2Proof.Machine Sys2Proof.Rules

/-! ### Reset and the step -/

/-- R32, R211: after reset the core is idle, RST is released and every channel is empty. The channels' capacity and the
counts `serial` and `draws` after reset are the model's own (log entries 2, 9 and 5) and are not stated. -/
def Obligations.ResetLeavesIdleCoreAndEmptyChannels : Prop :=
  State.reset.core = .idle ∧ State.reset.rst = false ∧ State.reset.cmd = [] ∧ State.reset.din = [] ∧
  State.reset.dout.items = [] ∧ State.reset.evt.items = [] ∧ State.reset.rsp.items = []

/-- R24, R30, R65: an idle core takes the four words at the head of CMD and, when they spell a command, the step is that
command's `exec` in the state where the descriptor is latched and nothing of its payload has been taken. -/
def Obligations.StepRunsDecodedCommand : Prop :=
  ∀ (s : State) (d : Descriptor) (rest : List Word) (i : Instr),
    s.rst = false → s.core = .idle → s.cmd = d.words ++ rest → decode d = .command i →
    step s = exec i { s with cmd := rest, core := .receiving d [] }

/-- R24, R29: a busy core goes on with the command whose descriptor it holds, whatever stands on CMD. -/
def Obligations.BusyStepContinuesLatchedCommand : Prop :=
  ∀ (s : State) (d : Descriptor) (payload : List Byte) (i : Instr),
    s.rst = false →
    (s.core = .receiving d payload ∨ (∃ o, s.core = .sending d payload o) ∨ ∃ bytes, s.core = .strayed d bytes) →
    decode d = .command i → step s = exec i s

/-- R10, R73 (d): a descriptor with `LEN` above 2^28 - 1 is refused, whatever its other words. -/
def Obligations.OverlongPayloadIsRefused : Prop :=
  ∀ (s : State) (d : Descriptor) (rest : List Word),
    s.rst = false → s.core = .idle → s.cmd = d.words ++ rest → 268435455 < d.w3.toNat →
    step s = .refused .lenAboveLmax

/-- R24, R30, R41, R42: with its own payload on DIN and room for its answer, a descriptor is carried in one step from Idle
to Idle; the answer is that of the descriptor and the payload alone. -/
def Obligations.CommandIsOneStepFromIdleToIdle : Prop :=
  ∀ (s : State) (d : Descriptor) (rest : List Word) (r : Reply),
    s.rst = false → s.core = .idle → s.cmd = d.words ++ rest → s.payloadReady d.len →
    answer d (s.nextBytes d.len) = some r → s.hasRoomFor r.out.length r.events.length →
    step s = .next { s with
      cmd := rest, serial := s.serial + 1, din := s.din.drop d.len, dout := s.dout.put r.out,
      evt := s.evt.put r.events, rsp := s.rsp.put r.words }

/-- R217, first wait: an idle core with fewer than four words on CMD stays as it is. That waiting is a step which
changes nothing is the model's form (log entry 1), and so is that none of the words is taken (log entry 15). -/
def Obligations.IdleCoreWaitsForDescriptor : Prop :=
  ∀ s : State, s.rst = false → s.core = .idle → s.cmd.length < 4 → step s = .next s

/-- R217, second wait: while payload bytes are missing the command takes those of its own that have arrived, delivers nothing and
stays in flight. That nothing is delivered before the payload is complete, and that all that has arrived is taken, is the
model's choice (log entries 3 and 16). -/
def Obligations.CommandWaitsForMissingPayload : Prop :=
  ∀ (s : State) (i : Instr) (d : Descriptor) (payload : List Byte),
    s.core = .receiving d payload → payload.length + s.din.length < i.len →
    s.ownsBytes (i.len - payload.length) = true →
    exec i s = .next { s with core := .receiving d (payload ++ s.nextBytes s.din.length), din := [] }

/-- R219: a command takes surplus bytes of an earlier payload, and bytes of a later one, as it takes its own; it delivers
nothing then, and goes no further: the next step, and every later one without reset, is refused, since the spec says
nothing of the core's outputs from there (U11 of 93_implementation_defined). That a byte tells for which command it was
placed is the model's (log entry 9), and so is that nothing is delivered before the payload is complete (log entry 3). -/
def Obligations.StrayPayloadIsTakenAndThenRefused : Prop :=
  (∀ (s : State) (i : Instr) (d : Descriptor) (payload : List Byte),
    s.core = .receiving d payload ∨ (s.core = .idle ∧ d = encode i ∧ payload = []) →
    s.ownsBytes (i.len - payload.length) = false →
    exec i s = .next { s with
      core := .strayed d (payload.map (placedFor s.serial) ++ s.din.take (i.len - payload.length))
      din := s.din.drop (i.len - payload.length) }) ∧
  ∀ (s : State) (d : Descriptor) (bytes : List PlacedByte), s.core = .strayed d bytes →
    (∀ i, exec i s = .refused .strayPayload) ∧
    (s.rst = false → decode d ≠ .refused → step s = .refused .strayPayload)

/-- R219: a core is never astray, and no step is refused, while the host puts exactly `LEN` bytes on DIN for each
descriptor: from such a state, unless the descriptor to be worked on has `LEN` above `LMAX`, the step gives a next state,
and that state is such a state again. -/
def Obligations.DisciplinedHostIsNeverRefused : Prop :=
  ∀ s : State, s.disciplined → s.rst = false → (∀ d t, fetch s = some (d, t) → decode d ≠ .refused) →
    ∃ t, step s = .next t ∧ t.disciplined

/-- R212, R219, R221: how a host keeps `disciplined`, and how it restores it. From every disciplined state, whatever is
still missing, it may place a further descriptor, and its `LEN` bytes join those missing; it may place any number of the
bytes missing next; and a step of the core leaves missing what was, so that all this may be at once or later. From a
supplied state it may place a descriptor and its payload in two pieces, the second at once or after a step, or issue a
command whose payload has `LEN` bytes, and is supplied again. Emptying the channels of an idle core makes it supplied
whatever stood on them, stale bytes and leftover words too. That the payload may follow its descriptor at any time is
the model's reading (log entry 18), and the numbers that tell whose a byte is are its own (log entry 9). -/
def Obligations.ExactPayloadsKeepDiscipline : Prop :=
  (∀ (s : State) (d : Descriptor), s.disciplined → s.cmd.length % 4 = 0 →
    (s.hostPlaceWords d.words).disciplined ∧
    (s.hostPlaceWords d.words).missingSerials = s.missingSerials ++ List.replicate d.len s.nextSerial) ∧
  (∀ (s : State) (n : Nat) (bytes : List Byte) (others : List Nat), s.disciplined →
    s.missingSerials = List.replicate bytes.length n ++ others →
    (s.hostPlacePayload n bytes).disciplined ∧ (s.hostPlacePayload n bytes).missingSerials = others) ∧
  (∀ s t : State, s.disciplined → s.rst = false → step s = .next t →
    t.disciplined ∧ t.missingSerials = s.missingSerials) ∧
  (∀ (s : State) (d : Descriptor) (first second : List Byte), s.supplied → s.cmd.length % 4 = 0 →
    first.length + second.length = d.len →
    (s.hostPlaceWords d.words).disciplined ∧
    ((s.hostPlaceWords d.words).hostPlacePayload s.nextSerial first).disciplined ∧
    (((s.hostPlaceWords d.words).hostPlacePayload s.nextSerial first).hostPlacePayload s.nextSerial second).supplied ∧
    (∀ t, s.rst = false → step ((s.hostPlaceWords d.words).hostPlacePayload s.nextSerial first) = .next t →
      (t.hostPlacePayload s.nextSerial second).supplied) ∧
    (s.hostIssue ⟨d, first ++ second⟩).supplied) ∧
  ∀ s : State, s.core = .idle → s.hostFlush.supplied

/-- R217: a core that is still busy after a step lacks one of the three things it can wait for: payload bytes, or room
on the channel it has something to deliver on; or it is astray (R219) and holds a byte placed for another command. That
a step goes as far as it can, and the numbers that tell a stray byte, are the model's (log entries 16 and 9). -/
def Obligations.BusyCoreLacksPayloadOrRoom : Prop :=
  ∀ s t : State, s.Inv → step s = .next t →
    (∀ d payload, t.core = .receiving d payload → t.din = [] ∧ payload.length < d.len) ∧
    (∀ d payload o, t.core = .sending d payload o →
      (o.out ≠ [] ∧ t.dout.hasRoom 1 = false) ∨ (o.events ≠ [] ∧ t.evt.hasRoom 1 = false) ∨
      (o.outputDone = true ∧ o.words ≠ [] ∧ t.rsp.hasRoom 1 = false)) ∧
    (∀ d bytes, t.core = .strayed d bytes → ∃ b, b ∈ bytes ∧ b.serial ≠ t.serial)

/-- R211, R212: under RST a step leaves the core idle, changes nothing if it was idle, and touches neither CMD nor
RST. That CMD is unchanged, and the whole state of an idle core, is the model's choice: that RST is a level, read when a
step begins (log entry 6), that a part of a descriptor still stands on CMD (log entry 15), that a core astray has taken no
further word from CMD by then (log entry 19), and that what the host has queued is kept (log entry 20). -/
def Obligations.AssertedResetIdlesCore : Prop :=
  ∀ s : State, s.rst = true →
    ∃ t, step s = .next t ∧ t.core = .idle ∧ t.cmd = s.cmd ∧ t.rst = true ∧ (s.core = .idle → t = s)

/-- R212: a command that reset cuts short while its answer is being delivered delivers no response descriptor: the words
of its response that the host has taken and those that stand on RSP after the step, behind what stood there before the
command, are fewer than four together; and at most `LEN` bytes of its payload are consumed. The words left and the number
consumed are free values (log entry 5). -/
def Obligations.AbandonedCommandDeliversNoResponse : Prop :=
  ∀ (s : State) (d : Descriptor) (payload : List Byte) (o : Outgoing),
    s.Inv → s.rst = true → s.core = .sending d payload o →
    ∃ t stale, step s = .next t ∧ (o.wordsSent - s.rsp.items.length) + stale.length < 4 ∧
      t.rsp.items = s.rsp.items.take (s.rsp.items.length - o.wordsSent) ++ stale ∧
      ∃ k, k ≤ d.len ∧ t.din = (payload.map (placedFor s.serial) ++ s.din).drop k

/-- R212: a command that reset cuts short while it is taking its payload delivers no response word, and at most `LEN`
bytes are consumed, a free number of them (log entry 5). For a command that is astray this is the model's choice, which
no rule states: R219 says nothing of the core's outputs by then (log entry 19). -/
def Obligations.AbandonedReceiverDeliversNoResponse : Prop :=
  ∀ (s : State) (d : Descriptor) (bytes : List PlacedByte), s.rst = true →
    (s.core = .strayed d bytes ∨
      ∃ payload, s.core = .receiving d payload ∧ bytes = payload.map (placedFor s.serial)) →
    ∃ t, step s = .next t ∧ t.rsp = s.rsp ∧ ∃ k, k ≤ d.len ∧ t.din = (bytes ++ s.din).drop k

/-! ### Decoding and encoding -/

/-- R63 to R72: every command term within the field ranges is what its descriptor decodes to, for every `LMAX`. -/
def Obligations.EncodedCommandDecodesToItself : Prop :=
  ∀ (p : Config.Params) (i : Instr), i.wellFormedFor p = true → decodeFor p (encode i) = .command i

/-- R60 to R73: a descriptor that decodes to a command is that command's encoding, and the command is within the field
ranges: no two descriptors spell one command. -/
def Obligations.DecodedDescriptorIsItsEncoding : Prop :=
  ∀ (p : Config.Params) (d : Descriptor) (i : Instr), decodeFor p d = .command i →
    i.wellFormedFor p = true ∧ encode i = d

/-- R64, R66, R73: exactly the descriptors with a reserved `OP`, a non-zero `RSV0` or a non-zero unused field are
illegal, and exactly those with `LEN > LMAX` are refused. -/
def Obligations.IllegalAndRefusedDescriptorsAreThose : Prop :=
  ∀ d : Descriptor,
    (decode d = .refused ↔ 268435455 < d.w3.toNat) ∧
    ((∃ cause, decode d = .illegal cause) ↔ d.w3.toNat ≤ 268435455 ∧ isIllegal d)

/-- R43, R60: the sixteen bytes of a descriptor, each word's bits 7:0 first, read back as the descriptor, with the bytes
after them left. -/
def Obligations.DescriptorBytesReadBack : Prop :=
  ∀ (d : Descriptor) (rest : List Byte), takeDescriptor (d.bytes ++ rest) = some (d, rest)

/-- R43: byte `4k + j` of a descriptor holds bits `8j + 7` to `8j` of word `k`. -/
def Obligations.DescriptorBytesAreLittleEndian : Prop :=
  ∀ (d : Descriptor) (k j : Nat), k < 4 → j < 4 →
    (d.bytes.getD (4 * k + j) 0).toNat = (d.words.getD k 0).toNat / 2 ^ (8 * j) % 256

/-- R67 to R72, R81: words written out from the encodings decode to the commands they stand for. -/
def Obligations.WorkedEncodingsDecode : Prop :=
  decode ⟨0x00000001, 0, 0, 0x00000003⟩ = .command (.unpack 3) ∧
  decode ⟨0x00000002, 0, 0, 0x00000005⟩ = .command (.expand 5) ∧
  decode ⟨0x00000003, 0x00000008, 0x00000000, 0x00000002⟩ = .command (.dec 8 2) ∧
  decode ⟨0x00000003, 0xFFFFFFFF, 0x00000000, 0x00000000⟩ = .command (.dec (-1) 0) ∧
  decode ⟨0x00000004, 0, 0, 0x0000001C⟩ = .command (.quant 28) ∧
  decode ⟨0x00000005, 0x00000003, 0x00000002, 0x00000006⟩ = .command (.pack 3 2 6) ∧
  decode ⟨0x00000006, 0x00000002, 0x00000001, 0x00000008⟩ = .command (.enc 2 1 8)

/-! ### The six commands -/

/-- R102 (with R67): `DOUT = unpack(DIN)`, for a payload of any length. -/
def Obligations.UnpackInterleavesPlanePairs : Prop :=
  (∀ w3 : Word, w3.toNat ≤ 268435455 → decode ⟨1, 0, 0, w3⟩ = .command (.unpack w3.toNat)) ∧
  ∀ (len : Nat) (s : State), s.accepting len → s.hasRoomFor (8 * (len / 2)) 0 →
    ∃ out : List Byte, out.length = 8 * (len / 2) ∧
      (∀ j, j < 8 * (len / 2) → out.getD j 0 = BitVec.ofNat 8 (indexAt (s.payload len) j)) ∧
      exec (.unpack len) s = .next (s.finish len ⟨out, [], [0, 0, 0, BitVec.ofNat 32 (8 * (len / 2))]⟩)

/-- R106 (with R68): BAD_INDEX if any payload byte exceeds 3, the expanded pixels otherwise. -/
def Obligations.ExpandWritesGreyPixels : Prop :=
  (∀ w3 : Word, w3.toNat ≤ 268435455 → decode ⟨2, 0, 0, w3⟩ = .command (.expand w3.toNat)) ∧
  ∀ (len : Nat) (s : State), s.accepting len → s.hasRoomFor (4 * len) 0 →
    ((∃ k, k < len ∧ 3 < byteAt (s.payload len) k) →
      exec (.expand len) s = .next (s.finish len ⟨[], [], [5, 0, 0, 0]⟩)) ∧
    ((∀ k, k < len → byteAt (s.payload len) k ≤ 3) →
      ∃ out, greyBuffer out len (fun j => 85 * byteAt (s.payload len) j) ∧
        exec (.expand len) s = .next (s.finish len ⟨out, [], [0, 0, 0, BitVec.ofNat 32 (4 * len)]⟩))

/-- R110 (with R69): INVALID_WIDTH for a width at or below zero, otherwise the image of `WIDTH` columns and `N div WIDTH` rows with
its two events. The percentages 0 and 100 are this hardware's (R9). -/
def Obligations.DecMakesImageOfDerivedHeight : Prop :=
  (∀ w1 w3 : Word, w3.toNat ≤ 268435455 →
    decode ⟨3, w1, 0, w3⟩ = .command (.dec (signedAt w1) w3.toNat)) ∧
  ∀ (width : Int) (len : Nat) (s : State), s.accepting len →
    (width ≤ 0 → s.hasRoomFor 0 0 →
      exec (.dec width len) s = .next (s.finish len ⟨[], [], [1, 0, 0, 0]⟩)) ∧
    (∀ w : Nat, width = w → 1 ≤ w → s.hasRoomFor (4 * (w * (8 * (len / 2) / w))) 2 →
      ∃ out, greyBuffer out (w * (8 * (len / 2) / w)) (fun j => 85 * indexAt (s.payload len) j) ∧
        exec (.dec width len) s = .next (s.finish len ⟨out, [0x0001, 0x6402],
          [0, BitVec.ofNat 32 w, BitVec.ofNat 32 (8 * (len / 2) / w),
            BitVec.ofNat 32 (4 * (w * (8 * (len / 2) / w)))]⟩))

/-- R133 (with R70): BAD_LENGTH for a payload that ends inside a pixel, the quantised values otherwise. -/
def Obligations.QuantReducesPixels : Prop :=
  (∀ w3 : Word, w3.toNat ≤ 268435455 → decode ⟨4, 0, 0, w3⟩ = .command (.quant w3.toNat)) ∧
  ∀ (len : Nat) (s : State), s.accepting len → s.hasRoomFor (len / 4) 0 →
    (len % 4 ≠ 0 → exec (.quant len) s = .next (s.finish len ⟨[], [], [4, 0, 0, 0]⟩)) ∧
    (len % 4 = 0 →
      ∃ out : List Byte, out.length = len / 4 ∧
        (∀ j, j < len / 4 → out.getD j 0 = BitVec.ofNat 8 (quantAt (s.payload len) j)) ∧
        exec (.quant len) s = .next (s.finish len ⟨out, [], [0, 0, 0, BitVec.ofNat 32 (len / 4)]⟩))

/-- R139 (with R71): the three faults in their order, the packed rows otherwise. -/
def Obligations.PackPairsValuesByRows : Prop :=
  (∀ w1 w2 w3 : Word, w3.toNat ≤ 268435455 →
    decode ⟨5, w1, w2, w3⟩ = .command (.pack (signedAt w1) w2.toNat w3.toNat)) ∧
  ∀ (width : Int) (height len : Nat) (s : State), s.accepting len →
    (width ≤ 0 → s.hasRoomFor 0 0 →
      exec (.pack width height len) s = .next (s.finish len ⟨[], [], [1, 0, 0, 0]⟩)) ∧
    (∀ w : Nat, width = w → 1 ≤ w →
      (len ≠ w * height → s.hasRoomFor 0 0 →
        exec (.pack width height len) s = .next (s.finish len ⟨[], [], [4, 0, 0, 0]⟩)) ∧
      (len = w * height → (∃ k, k < len ∧ 3 < byteAt (s.payload len) k) → s.hasRoomFor 0 0 →
        exec (.pack width height len) s = .next (s.finish len ⟨[], [], [5, 0, 0, 0]⟩)) ∧
      (len = w * height → (∀ k, k < len → byteAt (s.payload len) k ≤ 3) →
        s.hasRoomFor (height * ((w + 1) / 2)) 0 →
        ∃ out, packedBuffer out (byteAt (s.payload len)) w height ∧
          exec (.pack width height len) s =
            .next (s.finish len ⟨out, [], [0, 0, 0, BitVec.ofNat 32 (height * ((w + 1) / 2))]⟩)))

/-- R142 (with R72): the two faults in their order, the packed rows of quantised pixels with the encode-done event otherwise. The
percentage 100 is this hardware's (R9). -/
def Obligations.EncPacksQuantisedRows : Prop :=
  (∀ w1 w2 w3 : Word, w3.toNat ≤ 268435455 →
    decode ⟨6, w1, w2, w3⟩ = .command (.enc (signedAt w1) w2.toNat w3.toNat)) ∧
  ∀ (width : Int) (height len : Nat) (s : State), s.accepting len →
    (width ≤ 0 → s.hasRoomFor 0 0 →
      exec (.enc width height len) s = .next (s.finish len ⟨[], [], [1, 0, 0, 0]⟩)) ∧
    (∀ w : Nat, width = w → 1 ≤ w →
      (len ≠ 4 * w * height → s.hasRoomFor 0 0 →
        exec (.enc width height len) s = .next (s.finish len ⟨[], [], [4, 0, 0, 0]⟩)) ∧
      (len = 4 * w * height → s.hasRoomFor (height * ((w + 1) / 2)) 1 →
        ∃ out, packedBuffer out (quantAt (s.payload len)) w height ∧
          exec (.enc width height len) s =
            .next (s.finish len ⟨out, [0x6403], [0, 0, 0, BitVec.ofNat 32 (height * ((w + 1) / 2))]⟩)))

/-- The frame of all six commands: what any command's step leaves as it was, in every state. CMD, RST and the channels'
capacities stay; DIN loses its oldest bytes, up to the `LEN` of the command, and none while an answer is on its way; the
count of ended commands moves exactly when the core ends idle;
DOUT, EVT and RSP keep every element they hold and only gain elements behind them; and EVT stays as it was for UNPACK,
EXPAND, QUANT and PACK (R40, R41, R195, R196). That a step takes all the bytes it can is the model's choice (log entry
16), and the count is its own (log entry 9). -/
def Obligations.CommandLeavesTheRestUnchanged : Prop :=
  ∀ (i : Instr) (s t : State), exec i s = .next t →
    t.cmd = s.cmd ∧ t.rst = s.rst ∧
    t.dout.capacity = s.dout.capacity ∧ t.evt.capacity = s.evt.capacity ∧ t.rsp.capacity = s.rsp.capacity ∧
    (t.din = if s.isSending then s.din else s.din.drop (i.len - s.received.length)) ∧
    (t.serial = if t.core = .idle then s.serial + 1 else s.serial) ∧
    s.dout.items <+: t.dout.items ∧ s.evt.items <+: t.evt.items ∧ s.rsp.items <+: t.rsp.items ∧
    (∀ len, (i = .unpack len ∨ i = .expand len ∨ i = .quant len ∨ ∃ w h, i = .pack w h len) →
      s.isSending = false → t.evt = s.evt)

/-- R40, R42: in every state, what a command's step delivers on a channel and what it still owes there is, in order,
exactly what was owed: the rest of the answer on its way, or the whole answer once the payload is complete. While payload
is missing, and when bytes of another payload have been taken, nothing is owed and nothing delivered: this clause is the
model's own choice, which R40 and R42 do not state (log entries 3 and 9). -/
def Obligations.AnswerIsDeliveredOnceAndInOrder : Prop :=
  ∀ (i : Instr) (s t : State) (owed : Reply), exec i s = .next t →
    (s.isSending = true → owed = ⟨s.pendingOut, s.pendingEvents, s.pendingWords⟩) →
    (s.isSending = false →
      s.received.length + s.din.length < i.len ∨ s.ownsBytes (i.len - s.received.length) = false →
      owed = ⟨[], [], []⟩) →
    (s.isSending = false → i.len ≤ s.received.length + s.din.length →
      s.ownsBytes (i.len - s.received.length) = true → owed = replyFor Config.hardware i (s.payload i.len)) →
    t.dout.items ++ t.pendingOut = s.dout.items ++ owed.out ∧
    t.evt.items ++ t.pendingEvents = s.evt.items ++ owed.events ∧
    t.rsp.items ++ t.pendingWords = s.rsp.items ++ owed.words

/-- R54 (c), R197: in every state, a command's step puts a response word on RSP only when no output byte and no event of
the command is left to deliver. -/
def Obligations.ResponseFollowsEveryByteAndEvent : Prop :=
  ∀ (i : Instr) (s t : State), exec i s = .next t → t.rsp.items ≠ s.rsp.items →
    t.pendingOut = [] ∧ t.pendingEvents = []

/-- R19, R20: two cores, in whatever states, that carry out one command on one payload give one answer. -/
def Obligations.AnswerDependsOnCommandAndPayloadAlone : Prop :=
  ∀ (i : Instr) (s₁ s₂ : State), s₁.accepting i.len → s₂.accepting i.len →
    s₁.payload i.len = s₂.payload i.len →
    (∀ n m, s₁.hasRoomFor n m) → (∀ n m, s₂.hasRoomFor n m) →
    ∃ r, exec i s₁ = .next (s₁.finish i.len r) ∧ exec i s₂ = .next (s₂.finish i.len r)

/-! ### Faults -/

/-- R182 to R185, R188: the status is that of the first cause that applies, in the order ILLEGAL_CMD, INVALID_WIDTH,
BAD_LENGTH, BAD_INDEX, and OK when none applies; a refused descriptor has none. -/
def Obligations.StatusIsTheFirstCauseThatApplies : Prop :=
  (∀ (d : Descriptor) (P : List Byte), 268435455 < d.w3.toNat → answer d P = none) ∧
  ∀ (d : Descriptor) (P : List Byte), d.w3.toNat ≤ 268435455 → P.length = d.w3.toNat →
    ∃ r, answer d P = some r ∧
      (isIllegal d → r.status = 3) ∧
      (¬ isIllegal d → hasBadWidth d → r.status = 1) ∧
      (¬ isIllegal d → ¬ hasBadWidth d → hasBadLength d → r.status = 4) ∧
      (¬ isIllegal d → ¬ hasBadWidth d → ¬ hasBadLength d → hasBadIndex d P → r.status = 5) ∧
      (¬ isIllegal d → ¬ hasBadWidth d → ¬ hasBadLength d → ¬ hasBadIndex d P → r.status = 0)

/-- R190: a command on its own payload that ends with a status other than OK has consumed its whole payload, has written
no byte to DOUT, has emitted no event, delivers `STATUS` and three zero words, and leaves the core idle; all else stays
as it was, but for the model's count of ended commands. -/
def Obligations.FaultConsumesPayloadAndDeliversStatusOnly : Prop :=
  ∀ (s : State) (d : Descriptor) (rest : List Word) (r : Reply),
    s.rst = false → s.core = .idle → s.cmd = d.words ++ rest → s.payloadReady d.len →
    answer d (s.nextBytes d.len) = some r → r.status ≠ 0 → s.rsp.hasRoom 4 = true →
    step s = .next { s with
      cmd := rest, serial := s.serial + 1, din := s.din.drop d.len, rsp := s.rsp.put [BitVec.ofNat 32 r.status, 0, 0, 0] }

/-- R41, R183: a descriptor that spells no command is answered with ILLEGAL_CMD, its own payload consumed. -/
def Obligations.IllegalDescriptorIsAnswered : Prop :=
  ∀ (s : State) (d : Descriptor) (rest : List Word),
    s.rst = false → s.core = .idle → s.cmd = d.words ++ rest → s.payloadReady d.len →
    d.w3.toNat ≤ 268435455 → isIllegal d → s.rsp.hasRoom 4 = true →
    step s = .next { s with cmd := rest, serial := s.serial + 1, din := s.din.drop d.len, rsp := s.rsp.put [3, 0, 0, 0] }

/-- R75, R181: no answer carries a reserved status code. -/
def Obligations.ReservedStatusCodesAreNeverProduced : Prop :=
  ∀ (d : Descriptor) (P : List Byte) (r : Reply), answer d P = some r →
    r.status = 0 ∨ r.status = 1 ∨ r.status = 3 ∨ r.status = 4 ∨ r.status = 5

/-! ### Responses and events -/

/-- R42, R74, R76: for every legal choice of parameters a response has four words, `OLEN` is the number of output bytes,
R0 holds nothing above bit 7, and a fault's response is zero but for `STATUS`. -/
def Obligations.ResponseCountsTheOutputBytes : Prop :=
  ∀ (p : Config.Params) (i : Instr) (P : List Byte), p.legal = true → i.wellFormedFor p = true → P.length = i.len →
    (replyFor p i P).words.length = 4 ∧
    ((replyFor p i P).words.getD 3 0).toNat = (replyFor p i P).out.length ∧
    ((replyFor p i P).words.getD 0 0).toNat = (replyFor p i P).status ∧
    ((replyFor p i P).status ≠ 0 →
      (replyFor p i P).out = [] ∧ (replyFor p i P).words.getD 1 0 = 0 ∧ (replyFor p i P).words.getD 2 0 = 0)

/-- R74, R76: `OW` and `OH` are zero but for DEC, whose image they measure. -/
def Obligations.ImageSizeIsReportedByDecAlone : Prop :=
  ∀ (p : Config.Params) (i : Instr) (P : List Byte), p.legal = true → i.wellFormedFor p = true → P.length = i.len →
    (replyFor p i P).status = 0 →
    (∀ (w : Nat) (len : Nat), i = .dec w len →
      ((replyFor p i P).words.getD 1 0).toNat = w ∧
      ((replyFor p i P).words.getD 2 0).toNat = 8 * (len / 2) / w) ∧
    ((∀ (w : Int) (len : Nat), i ≠ .dec w len) →
      (replyFor p i P).words.getD 1 0 = 0 ∧ (replyFor p i P).words.getD 2 0 = 0)

/-- R77, R196: for every legal choice of percentages, a DEC that ends with OK emits decode-start and then decode-done, an
ENC that ends with OK emits encode-done, and nothing else emits an event. -/
def Obligations.EventsAreThoseOfTheMilestones : Prop :=
  ∀ (p : Config.Params) (i : Instr) (P : List Byte), p.legal = true →
    (∀ w len, i = .dec w len → (replyFor p i P).status = 0 →
      (replyFor p i P).events.map (fun e => (e.toNat % 256, e.toNat / 256)) =
        [(1, p.pctDecodeStart), (2, p.pctDecodeDone)]) ∧
    (∀ w h len, i = .enc w h len → (replyFor p i P).status = 0 →
      (replyFor p i P).events.map (fun e => (e.toNat % 256, e.toNat / 256)) = [(3, p.pctEncodeDone)]) ∧
    (((∀ w len, i ≠ .dec w len) ∧ (∀ w h len, i ≠ .enc w h len)) ∨ (replyFor p i P).status ≠ 0 →
      (replyFor p i P).events = [])

/-- R222: the work of a command is bounded by its input: at most `16 * LEN + 16` byte, event and word writes. -/
def Obligations.WritesAreBoundedByInputSize : Prop :=
  ∀ (d : Descriptor) (P : List Byte) (r : Reply), P.length = d.len → answer d P = some r →
    r.out.length + r.events.length + r.words.length ≤ 16 * d.len + 16

/-! ### Laws of the decode path -/

/-- R103: the map from a plane pair to its eight indices is a bijection between 16 bits and eight 2-bit values. -/
def Obligations.PlanePairDeterminesAndIsDeterminedByIndices : Prop :=
  (∀ b0 b1 c0 c1 : Byte, unpack [b0, b1] = unpack [c0, c1] → b0 = c0 ∧ b1 = c1) ∧
  (∀ v : List Byte, v.length = 8 → (∀ i, i ∈ v → i.toNat ≤ 3) → ∃ b0 b1 : Byte, unpack [b0, b1] = v)

/-- R101, R44: an odd trailing byte is used by no index. -/
def Obligations.OddTrailingByteIsIgnored : Prop :=
  ∀ (P : List Byte) (b : Byte), P.length % 2 = 0 → unpack (P ++ [b]) = unpack P

/-- R104, R105: the grey byte of an index is the pattern that repeats its two bits four times. -/
def Obligations.GreyByteRepeatsTheIndexBits : Prop :=
  ∀ i : Byte, i.toNat ≤ 3 →
    expand i = ⟨BitVec.ofNat 8 (85 * i.toNat), BitVec.ofNat 8 (85 * i.toNat), BitVec.ofNat 8 (85 * i.toNat), 255⟩ ∧
    85 * i.toNat = i.toNat * 64 + i.toNat * 16 + i.toNat * 4 + i.toNat

/-- R111: DEC is UNPACK, then EXPAND, then the cut to whole rows; EXPAND cannot end with BAD_INDEX there. -/
def Obligations.DecIsUnpackThenExpandCutToRows : Prop :=
  ∀ (p : Config.Params) (w : Nat) (P : List Byte), 1 ≤ w →
    (expandReply (unpackReply P.length P).out.length (unpackReply P.length P).out).status = 0 ∧
    (decReply p w P.length P).out =
      (expandReply (unpackReply P.length P).out.length (unpackReply P.length P).out).out.take
        (4 * w * (8 * (P.length / 2) / w))

/-- R112: the counts of DEC and their bounds. -/
def Obligations.DecCountsAndBounds : Prop :=
  ∀ (p : Config.Params) (w : Nat) (P : List Byte), 1 ≤ w → P.length ≤ 268435455 →
    (decReply p w P.length P).out.length = 4 * (w * (8 * (P.length / 2) / w)) ∧
    8 * (P.length / 2) - w * (8 * (P.length / 2) / w) = 8 * (P.length / 2) % w ∧
    8 * (P.length / 2) % w < w ∧
    (decReply p w P.length P).out.length ≤ 16 * P.length ∧
    (decReply p w P.length P).out.length ≤ 4294967280 ∧
    8 * (P.length / 2) / w ≤ 8 * (P.length / 2) ∧ 8 * (P.length / 2) ≤ 1073741816

/-- R114: every pixel of a DEC output is an opaque grey of the four levels, and of two outputs for one buffer the shorter
is a prefix of the longer. -/
def Obligations.DecOutputsAreOpaqueGreysAndPrefixes : Prop :=
  ∀ (p : Config.Params) (w : Nat) (P : List Byte), 1 ≤ w →
    (decReply p w P.length P).out.length % (4 * w) = 0 ∧
    (∀ px, px ∈ readPixels (decReply p w P.length P).out →
      px.r = px.g ∧ px.g = px.b ∧ px.a = 255 ∧ (px.r = 0 ∨ px.r = 85 ∨ px.r = 170 ∨ px.r = 255)) ∧
    (∀ w' : Nat, 1 ≤ w' →
      (decReply p w P.length P).out.length ≤ (decReply p w' P.length P).out.length →
      (decReply p w P.length P).out <+: (decReply p w' P.length P).out)

/-! ### Laws of the encode path -/

/-- R131, R16: the plane bit of a channel, by the truncating thresholds. -/
def Obligations.PlaneBitFollowsTheThresholds : Prop :=
  ∀ c : Byte, q1 c = (if (85 ≤ c.toNat ∧ c.toNat ≤ 169) ∨ c.toNat = 255 then 1 else 0)

/-- R131, R132: R gives bit 0 of the quantised value, G gives bit 1, and B and A are not read. -/
def Obligations.QuantisedValueReadsRedAndGreenOnly : Prop :=
  ∀ r g b a b' a' : Byte, (quant ⟨r, g, b, a⟩).toNat = q1 r + 2 * q1 g ∧ quant ⟨r, g, b, a⟩ = quant ⟨r, g, b', a'⟩

/-- R143: ENC is QUANT, then PACK; PACK cannot end with BAD_INDEX there. -/
def Obligations.EncIsQuantThenPack : Prop :=
  ∀ (p : Config.Params) (w h : Nat) (X : List Byte), 1 ≤ w → X.length = 4 * w * h →
    (packReply w h (quantReply X.length X).out.length (quantReply X.length X).out).status = 0 ∧
    (encReply p w h X.length X).out =
      (packReply w h (quantReply X.length X).out.length (quantReply X.length X).out).out

/-- R145: the output of PACK and of ENC has the length `HEIGHT * ceil(WIDTH / 2)`, bits 7, 6, 3 and 2 of every byte are
zero, and for an odd width the last byte of every row has a zero low nibble. -/
def Obligations.PackedOutputsKeepTheirZeroBits : Prop :=
  ∀ (p : Config.Params) (w h len : Nat) (P : List Byte) (r : Reply),
    (r = packReply w h len P ∨ r = encReply p w h len P) → P.length = len → r.status = 0 →
    r.out.length = h * ((w + 1) / 2) ∧ (∀ b, b ∈ r.out → b &&& 0xCC = 0) ∧
    (w % 2 = 1 → ∀ k, k < r.out.length → k % ((w + 1) / 2) = (w + 1) / 2 - 1 → r.out.getD k 0 &&& 0x0F = 0)

/-! ### The two directions composed -/

/-- R163: expansion followed by quantisation copies bit 0 of an index to both bits. -/
def Obligations.QuantOfExpandCopiesBitZero : Prop :=
  ∀ i : Byte, i.toNat ≤ 3 → (quant (expand i)).toNat = 3 * (i.toNat &&& 1)

/-- R165: the round trip is `pack` of the plane-0 bits, tripled, and so has no other dependence on the buffer. -/
def Obligations.RoundTripDependsOnPlaneZeroAlone : Prop :=
  ∀ (P : List Byte) (w : Nat), 1 ≤ w →
    (roundTrip P w).status = 0 ∧
    (roundTrip P w).out =
      pack ((List.range (w * roundTripHeight P w)).map fun j => BitVec.ofNat 8 (3 * planeZero P j)) w
        (roundTripHeight P w) ∧
    (∀ Q : List Byte, Q.length / 2 = P.length / 2 → (∀ k, k < P.length / 2 → byteAt Q (2 * k) = byteAt P (2 * k)) →
      (roundTrip Q w).out = (roundTrip P w).out)

/-- R166: the closed form for an even width. -/
def Obligations.RoundTripClosedFormForEvenWidth : Prop :=
  ∀ (P : List Byte) (w : Nat), 1 ≤ w → w % 2 = 0 →
    (roundTrip P w).out.length = w * roundTripHeight P w / 2 ∧
    (∀ m, m < w * roundTripHeight P w / 2 →
      byteAt (roundTrip P w).out m = 0x30 * planeZero P (2 * m) + 0x03 * planeZero P (2 * m + 1))

/-- R168: for a non-empty buffer of even length decoded without truncation the result of the round trip is at least
twice as long, so it never is the buffer. -/
def Obligations.RoundTripOfWholeBufferIsLonger : Prop :=
  ∀ (P : List Byte) (w n : Nat), 1 ≤ n → P.length = 2 * n → 1 ≤ w → 8 * n % w = 0 →
    (roundTrip P w).out.length = 8 * n / w * ((w + 1) / 2) ∧
    (w % 2 = 0 → (roundTrip P w).out.length = 2 * P.length) ∧
    (w % 2 = 1 → (roundTrip P w).out.length = (8 * n + 8 * n / w) / 2 ∧ 2 * P.length < (roundTrip P w).out.length) ∧
    (roundTrip P w).out ≠ P

/-- R167, R169, R170: the regression case, the degenerate fixed points, and the other composition. -/
def Obligations.DirectionsAreNotInverse : Prop :=
  (roundTrip [0xB0, 0x50] 8).out = [0x30, 0x33, 0x00, 0x00] ∧
  (roundTrip [0x00, 0x00, 0x00] 5).out = [0x00, 0x00, 0x00] ∧
  (roundTrip [0x00, 0x00, 0x00] 6).out = [0x00, 0x00, 0x00] ∧
  (encReply Config.hardware 4 1 16
    [255, 255, 0, 255, 0, 0, 0, 255, 85, 0, 0, 255, 0, 85, 0, 255]).out = [0x30, 0x12] ∧
  unpack [0x30, 0x12] = [0, 0, 1, 3, 0, 0, 2, 0] ∧
  (∀ w : Nat, 1 ≤ w → (roundTrip [] w).out = [])

/-- R164: the round trip as two commands. After DEC has ended, ENC of the image it delivered, with the width and height
it reported, ends with OK, provided the image is within `LMAX` (R221). -/
def Obligations.RoundTripIsTwoCommands : Prop :=
  ∀ (s : State) (P : List Byte) (w : Nat), s.core = .idle → s.rst = false → s.cmd = [] → s.din = [] →
    (∀ n m, s.hasRoomFor n m) → s.rsp.hasRoom 8 = true → 1 ≤ w → w ≤ 2147483647 → P.length ≤ 268435455 →
    (roundTripImage P w).length ≤ 268435455 →
    ∃ t u : State,
      step (s.hostIssue (.dec w P)) = .next t ∧
      t = s.finish 0 ⟨roundTripImage P w, [0x0001, 0x6402],
        [0, BitVec.ofNat 32 w, BitVec.ofNat 32 (roundTripHeight P w),
          BitVec.ofNat 32 (roundTripImage P w).length]⟩ ∧
      step (t.hostIssue (.enc w (roundTripHeight P w) (roundTripImage P w))) = .next u ∧
      u = t.finish 0 ⟨(roundTrip P w).out, [0x6403], [0, 0, 0, BitVec.ofNat 32 (roundTrip P w).out.length]⟩

/-! ### The invariant and the host -/

/-- The state after reset meets the invariant. -/
def Obligations.ResetMeetsInvariant : Prop := State.reset.Inv

/-- Every step keeps the invariant, from every state that meets it: what a busy core holds belongs to its one command
and is the undelivered rest of that command's answer (R24, R30), no response word goes before the output (R54 (c)), and
no channel holds more than it can (R217); a core that is astray holds a stray byte (R219). -/
def Obligations.EveryStepKeepsInvariant : Prop :=
  ∀ s t : State, s.Inv → step s = .next t → t.Inv

/-- What the host may do keeps the invariant (R212, R215, R221). -/
def Obligations.HostActsKeepInvariant : Prop :=
  ∀ (s : State) (c : Command) (ws : List Word) (bytes : List Byte) (n : Nat) (level : Bool), s.Inv →
    (s.hostPlaceWords ws).Inv ∧ (s.hostPlacePayload n bytes).Inv ∧ (s.hostIssue c).Inv ∧ (s.hostTakeDout n).Inv ∧ (s.hostTakeEvt n).Inv ∧ (s.hostTakeRsp n).Inv ∧
    (s.hostReset level).Inv ∧ s.hostFlush.Inv

/-- R215: a command queued ahead changes nothing for the command before it: issuing it before or after the step gives
the same state, when the command before has its descriptor and payload. -/
def Obligations.QueueingAheadChangesNothing : Prop :=
  ∀ (s t : State) (c : Command) (d : Descriptor) (rest : List Word),
    s.rst = false → s.core = .idle → s.cmd = d.words ++ rest → d.len ≤ s.din.length →
    step s = .next t → step (s.hostIssue c) = .next (t.hostIssue c)

/-- R40, R217, R218, R222: whatever the capacity of the output channels, down to one element, a host that takes what is
delivered after each step has the whole answer, each part in order, after `16 * LEN + 16` steps, and the core is idle with
nothing of the command left. That so many steps are enough is the model's choice (log entry 16), since a step of the model
does all it can: R222 promises finitely many steps, and its `16 * LEN + 16` bounds the writes. -/
def Obligations.DrainingHostGetsTheWholeAnswer : Prop :=
  ∀ (s : State) (d : Descriptor) (r : Reply),
    s.Inv → s.rst = false → s.core = .idle → s.cmd = d.words → s.payloadReady d.len →
    answer d (s.nextBytes d.len) = some r →
    s.dout.items = [] → s.evt.items = [] → s.rsp.items = [] →
    s.dout.usable = true → s.evt.usable = true → s.rsp.usable = true →
    ∃ t, drainRun (16 * d.len + 16) s ⟨[], [], []⟩ = some (t, r) ∧
      t.core = .idle ∧ t.cmd = [] ∧ t.din = s.din.drop d.len ∧ t.rst = false
end

