-- ==== Sys2Proof/Laws/Codec.lean ====
section
/-! SUPPORT. What the codec's functions give: lengths, ranges, and the fault conditions as propositions. -/

namespace Sys2Proof.Machine

/-! ### Lengths -/

theorem unpack_length (P : List Byte) : (unpack P).length = 8 * (P.length / 2) := by
  induction P using unpack.induct with
  | case1 b0 b1 rest ih => simp [unpack, ih, bitPositions]; omega
  | case2 P h =>
    match P, h with
    | [], _ => simp [unpack]
    | [_], _ => simp [unpack]
    | b0 :: b1 :: rest, h => exact (h b0 b1 rest rfl).elim

theorem expandAll_length (v : List Byte) : (expandAll v).length = 4 * v.length := by
  induction v with
  | nil => rfl
  | cons i v ih =>
    have : expandAll (i :: v) = (expand i).bytes ++ expandAll v := by simp [expandAll]
    simp [this, ih, Pixel.bytes]; omega

theorem readPixels_length (X : List Byte) : (readPixels X).length = X.length / 4 := by
  induction X using readPixels.induct with
  | case1 r g b a rest ih => simp [readPixels, ih]; omega
  | case2 X h =>
    match X, h with
    | [], _ => simp [readPixels]
    | [_], _ => simp [readPixels]
    | [_, _], _ => simp [readPixels]
    | [_, _, _], _ => simp [readPixels]
    | r :: g :: b :: a :: rest, h => exact (h r g b a rest rfl).elim

theorem packRow_length {α : Type} (value : α → Byte) (pad : α) (v : List α) :
    (packRow value pad v).length = (v.length + 1) / 2 := by
  induction v using packRow.induct with
  | case1 l r rest ih => simp [packRow, ih]; omega
  | case2 l => simp [packRow]
  | case3 => simp [packRow]

theorem packRows_length {α : Type} (value : α → Byte) (pad : α) (w h : Nat) (v : List α) (hv : w * h ≤ v.length) :
    (packRows value pad w h v).length = h * ((w + 1) / 2) := by
  induction h generalizing v with
  | zero => simp [packRows]
  | succ h ih =>
    have hw : w * (h + 1) = w * h + w := by ring
    have h1 : (v.take w).length = w := by simp; omega
    simp [packRows, packRow_length, ih (v.drop w) (by simp; omega), -List.length_take, h1]
    ring

/-! ### Elements -/

/-- Element `j` of `unpack` (R101). -/
theorem unpack_getD (P : List Byte) (j : Nat) (hj : j < 8 * (P.length / 2)) :
    (unpack P).getD j 0 = planeIndex (P.getD (2 * (j / 8)) 0) (P.getD (2 * (j / 8) + 1) 0) (7 - j % 8) := by
  induction P using unpack.induct generalizing j with
  | case1 b0 b1 rest ih =>
    rw [unpack]
    by_cases h : j < 8
    · interval_cases j <;> simp [bitPositions]
    · obtain ⟨k, rfl⟩ := Nat.exists_eq_add_of_le (Nat.le_of_not_lt h)
      have hk : k < 8 * (rest.length / 2) := by simp at hj; omega
      have hl : (bitPositions.map (planeIndex b0 b1)).length = 8 := rfl
      have h1 : (8 + k) / 8 = k / 8 + 1 := by omega
      have h2 : (8 + k) % 8 = k % 8 := by omega
      rw [List.getD_append_right _ _ _ _ (by rw [hl]; omega), hl, Nat.add_sub_cancel_left, ih k hk]
      simp [h1, h2, Nat.mul_add]
  | case2 P h =>
    match P, h with
    | [], _ => simp at hj
    | [_], _ => simp at hj
    | b0 :: b1 :: rest, h => exact (h b0 b1 rest rfl).elim

/-- Pixel `j` of an RGBA buffer (R45). -/
theorem readPixels_getD (X : List Byte) (j : Nat) (px : Pixel) (hj : j < X.length / 4) :
    (readPixels X).getD j px = ⟨X.getD (4 * j) 0, X.getD (4 * j + 1) 0, X.getD (4 * j + 2) 0, X.getD (4 * j + 3) 0⟩ := by
  induction X using readPixels.induct generalizing j with
  | case1 r g b a rest ih =>
    rw [readPixels]
    cases j with
    | zero => simp
    | succ j =>
      rw [List.getD_cons_succ, ih j (by simp at hj; omega)]
      have e : 4 * (j + 1) = 4 * j + 4 := by omega
      simp [e]
  | case2 X h =>
    match X, h with
    | [], _ => simp at hj
    | [_], _ => simp at hj
    | [_, _], _ => simp at hj
    | [_, _, _], _ => simp at hj
    | r :: g :: b :: a :: rest, h => exact (h r g b a rest rfl).elim

/-- Pair `c` of a row (R134). -/
theorem packRow_getD {α : Type} (value : α → Byte) (pad : α) (v : List α) (c : Nat) (hc : c < (v.length + 1) / 2) :
    (packRow value pad v).getD c 0 = packByte (value (v.getD (2 * c) pad)) (value (v.getD (2 * c + 1) pad)) := by
  induction v using packRow.induct generalizing c with
  | case1 l r rest ih =>
    rw [packRow]
    cases c with
    | zero => simp
    | succ c =>
      rw [List.getD_cons_succ, ih c (by simp at hc; omega)]
      have e : 2 * (c + 1) = 2 * c + 2 := by omega
      simp [e]
  | case2 l =>
    have : c = 0 := by simp at hc; omega
    subst this; simp [packRow]
  | case3 => simp at hc

/-- Pair `c` of row `y` (R138). -/
theorem packRows_getD {α : Type} (value : α → Byte) (pad : α) (w h : Nat) (v : List α) (hv : w * h ≤ v.length)
    (y c : Nat) (hy : y < h) (hc : c < (w + 1) / 2) :
    (packRows value pad w h v).getD (y * ((w + 1) / 2) + c) 0 =
      packByte (value (v.getD (y * w + 2 * c) pad))
        (if 2 * c + 1 < w then value (v.getD (y * w + 2 * c + 1) pad) else value pad) := by
  induction h generalizing v y with
  | zero => omega
  | succ h ih =>
    have hw : w * (h + 1) = w * h + w := by ring
    have h1 : (v.take w).length = w := by simp; omega
    have hr : (packRow value pad (v.take w)).length = (w + 1) / 2 := by rw [packRow_length, h1]
    rw [packRows]
    cases y with
    | zero =>
      simp only [Nat.zero_mul, Nat.zero_add]
      rw [List.getD_append _ _ _ _ (by rw [hr]; exact hc), packRow_getD _ _ _ _ (by rw [h1]; exact hc)]
      have e : ∀ k, k < w → (v.take w).getD k pad = v.getD k pad := fun k hk => by simp [List.getD, hk]
      rw [e (2 * c) (by omega)]
      split
      · rw [e _ ‹_›]
      · rw [List.getD_eq_default (l := v.take w) (n := 2 * c + 1) _ (by rw [h1]; omega)]
    | succ y =>
      have e1 : (y + 1) * ((w + 1) / 2) + c = (w + 1) / 2 + (y * ((w + 1) / 2) + c) := by ring
      have e2 : ∀ k, (v.drop w).getD k pad = v.getD (w + k) pad := fun k => by simp [List.getD]
      have e3 : (y + 1) * w = w + y * w := by ring
      rw [e1, List.getD_append_right _ _ _ _ (by rw [hr]; omega), hr, Nat.add_sub_cancel_left,
        ih (v.drop w) (by simp; omega) y (by omega), e2, e2, e3]
      simp only [Nat.add_assoc]

/-! ### Ranges -/

theorem bit_le_one (b : Byte) (i : Nat) : bit b i ≤ 1 := Nat.and_le_right

theorem twoBit_toNat {low high : Nat} (hl : low ≤ 1) (hh : high ≤ 1) : (twoBit low high).toNat = low + 2 * high := by
  interval_cases low <;> interval_cases high <;> rfl

theorem planeIndex_toNat_le (b0 b1 : Byte) (p : Nat) : (planeIndex b0 b1 p).toNat ≤ 3 := by
  have h0 := bit_le_one b0 p
  have h1 := bit_le_one b1 p
  rw [planeIndex, twoBit_toNat h0 h1]; omega

/-- Every index that UNPACK produces is 0 to 3 (R102). -/
theorem unpack_mem_le {P : List Byte} {i : Byte} (h : i ∈ unpack P) : i.toNat ≤ 3 := by
  induction P using unpack.induct with
  | case1 b0 b1 rest ih =>
    simp only [unpack, List.mem_append, List.mem_map] at h
    rcases h with ⟨p, -, rfl⟩ | h
    · exact planeIndex_toNat_le b0 b1 p
    · exact ih h
  | case2 P h' =>
    match P, h' with
    | [], _ => simp [unpack] at h
    | [_], _ => simp [unpack] at h
    | b0 :: b1 :: rest, h' => exact (h' b0 b1 rest rfl).elim

theorem q1_le_one (c : Byte) : q1 c ≤ 1 := Nat.and_le_right

theorem quant_toNat (px : Pixel) : (quant px).toNat = q1 px.r + 2 * q1 px.g :=
  twoBit_toNat (q1_le_one _) (q1_le_one _)

theorem quant_toNat_le (px : Pixel) : (quant px).toNat ≤ 3 := by
  have h0 := q1_le_one px.r
  have h1 := q1_le_one px.g
  rw [quant_toNat]; omega

theorem quant_syntheticRight : quant syntheticRight = 0 := by decide

/-! ### The fault conditions -/

theorem badIndex_eq_false {P : List Byte} : badIndex P = false ↔ ∀ b, b ∈ P → b.toNat ≤ 3 := by
  simp [badIndex]

theorem badIndex_eq_true {P : List Byte} : badIndex P = true ↔ ∃ b, b ∈ P ∧ 3 < b.toNat := by
  simp [badIndex]

theorem invalidWidth_eq_true {w : Int} : invalidWidth w = true ↔ w ≤ 0 := by simp [invalidWidth]

theorem invalidWidth_natCast {w : Nat} (h : 1 ≤ w) : invalidWidth (w : Int) = false := by
  simp [invalidWidth]; omega

theorem wrongShape_eq_false {unit w h len : Nat} : wrongShape unit w h len = false ↔ len = unit * w * h := by
  simp [wrongShape]

theorem partialPixel_eq_false {len : Nat} : partialPixel len = false ↔ len % 4 = 0 := by simp [partialPixel]

/-! ### Responses -/

@[simp] theorem responseWords_length (st : Status) (ow oh olen : Nat) : (responseWords st ow oh olen).length = 4 := rfl

@[simp] theorem okReply_words (ow oh olen : Nat) (out : List Byte) (ev : List EventRecord) :
    (okReply ow oh olen out ev).words = responseWords .ok ow oh olen := rfl
@[simp] theorem okReply_out (ow oh olen : Nat) (out : List Byte) (ev : List EventRecord) :
    (okReply ow oh olen out ev).out = out := rfl
@[simp] theorem okReply_events (ow oh olen : Nat) (out : List Byte) (ev : List EventRecord) :
    (okReply ow oh olen out ev).events = ev := rfl
@[simp] theorem faultReply_words (st : Status) : (faultReply st).words = responseWords st 0 0 0 := rfl
@[simp] theorem faultReply_out (st : Status) : (faultReply st).out = [] := rfl
@[simp] theorem faultReply_events (st : Status) : (faultReply st).events = [] := rfl

/-- Every command's response has four words (R74). -/
theorem replyFor_words_length (p : Config.Params) (i : Instr) (P : List Byte) :
    (replyFor p i P).words.length = 4 := by
  cases i <;> simp only [replyFor, unpackReply, expandReply, decReply, quantReply, packReply, encReply] <;>
    (repeat' split) <;> simp

/-- Every answer's response has four words (R74). -/
theorem answer_words_length {d : Descriptor} {P : List Byte} {r : Reply} (h : answer d P = some r) :
    r.words.length = 4 := by
  unfold answer at h
  split at h
  · cases h; exact replyFor_words_length _ _ _
  · cases h; rfl
  · cases h

end Sys2Proof.Machine
end

