-- ==== Sys2Proof/Laws/State.lean ====
section
/-! SUPPORT. One lemma per field per update of the state, so that no later proof unfolds a record update. -/

namespace Sys2Proof.Machine

variable (s : State)

@[simp] theorem State.withCore_core (v : CoreState) : (s.withCore v).core = v := rfl
@[simp] theorem State.withCore_cmd (v : CoreState) : (s.withCore v).cmd = s.cmd := rfl
@[simp] theorem State.withCore_din (v : CoreState) : (s.withCore v).din = s.din := rfl
@[simp] theorem State.withCore_dout (v : CoreState) : (s.withCore v).dout = s.dout := rfl
@[simp] theorem State.withCore_evt (v : CoreState) : (s.withCore v).evt = s.evt := rfl
@[simp] theorem State.withCore_rsp (v : CoreState) : (s.withCore v).rsp = s.rsp := rfl
@[simp] theorem State.withCore_rst (v : CoreState) : (s.withCore v).rst = s.rst := rfl
@[simp] theorem State.withCore_draws (v : CoreState) : (s.withCore v).draws = s.draws := rfl
@[simp] theorem State.withCore_serial (v : CoreState) : (s.withCore v).serial = s.serial := rfl

@[simp] theorem State.withCmd_core (v : List Word) : (s.withCmd v).core = s.core := rfl
@[simp] theorem State.withCmd_cmd (v : List Word) : (s.withCmd v).cmd = v := rfl
@[simp] theorem State.withCmd_din (v : List Word) : (s.withCmd v).din = s.din := rfl
@[simp] theorem State.withCmd_dout (v : List Word) : (s.withCmd v).dout = s.dout := rfl
@[simp] theorem State.withCmd_evt (v : List Word) : (s.withCmd v).evt = s.evt := rfl
@[simp] theorem State.withCmd_rsp (v : List Word) : (s.withCmd v).rsp = s.rsp := rfl
@[simp] theorem State.withCmd_rst (v : List Word) : (s.withCmd v).rst = s.rst := rfl
@[simp] theorem State.withCmd_draws (v : List Word) : (s.withCmd v).draws = s.draws := rfl
@[simp] theorem State.withCmd_serial (v : List Word) : (s.withCmd v).serial = s.serial := rfl

@[simp] theorem State.withDin_core (v : List PlacedByte) : (s.withDin v).core = s.core := rfl
@[simp] theorem State.withDin_cmd (v : List PlacedByte) : (s.withDin v).cmd = s.cmd := rfl
@[simp] theorem State.withDin_din (v : List PlacedByte) : (s.withDin v).din = v := rfl
@[simp] theorem State.withDin_dout (v : List PlacedByte) : (s.withDin v).dout = s.dout := rfl
@[simp] theorem State.withDin_evt (v : List PlacedByte) : (s.withDin v).evt = s.evt := rfl
@[simp] theorem State.withDin_rsp (v : List PlacedByte) : (s.withDin v).rsp = s.rsp := rfl
@[simp] theorem State.withDin_rst (v : List PlacedByte) : (s.withDin v).rst = s.rst := rfl
@[simp] theorem State.withDin_draws (v : List PlacedByte) : (s.withDin v).draws = s.draws := rfl
@[simp] theorem State.withDin_serial (v : List PlacedByte) : (s.withDin v).serial = s.serial := rfl

@[simp] theorem State.withDout_core (v : Channel Byte) : (s.withDout v).core = s.core := rfl
@[simp] theorem State.withDout_cmd (v : Channel Byte) : (s.withDout v).cmd = s.cmd := rfl
@[simp] theorem State.withDout_din (v : Channel Byte) : (s.withDout v).din = s.din := rfl
@[simp] theorem State.withDout_dout (v : Channel Byte) : (s.withDout v).dout = v := rfl
@[simp] theorem State.withDout_evt (v : Channel Byte) : (s.withDout v).evt = s.evt := rfl
@[simp] theorem State.withDout_rsp (v : Channel Byte) : (s.withDout v).rsp = s.rsp := rfl
@[simp] theorem State.withDout_rst (v : Channel Byte) : (s.withDout v).rst = s.rst := rfl
@[simp] theorem State.withDout_draws (v : Channel Byte) : (s.withDout v).draws = s.draws := rfl
@[simp] theorem State.withDout_serial (v : Channel Byte) : (s.withDout v).serial = s.serial := rfl

@[simp] theorem State.withEvt_core (v : Channel EventRecord) : (s.withEvt v).core = s.core := rfl
@[simp] theorem State.withEvt_cmd (v : Channel EventRecord) : (s.withEvt v).cmd = s.cmd := rfl
@[simp] theorem State.withEvt_din (v : Channel EventRecord) : (s.withEvt v).din = s.din := rfl
@[simp] theorem State.withEvt_dout (v : Channel EventRecord) : (s.withEvt v).dout = s.dout := rfl
@[simp] theorem State.withEvt_evt (v : Channel EventRecord) : (s.withEvt v).evt = v := rfl
@[simp] theorem State.withEvt_rsp (v : Channel EventRecord) : (s.withEvt v).rsp = s.rsp := rfl
@[simp] theorem State.withEvt_rst (v : Channel EventRecord) : (s.withEvt v).rst = s.rst := rfl
@[simp] theorem State.withEvt_draws (v : Channel EventRecord) : (s.withEvt v).draws = s.draws := rfl
@[simp] theorem State.withEvt_serial (v : Channel EventRecord) : (s.withEvt v).serial = s.serial := rfl

@[simp] theorem State.withRsp_core (v : Channel Word) : (s.withRsp v).core = s.core := rfl
@[simp] theorem State.withRsp_cmd (v : Channel Word) : (s.withRsp v).cmd = s.cmd := rfl
@[simp] theorem State.withRsp_din (v : Channel Word) : (s.withRsp v).din = s.din := rfl
@[simp] theorem State.withRsp_dout (v : Channel Word) : (s.withRsp v).dout = s.dout := rfl
@[simp] theorem State.withRsp_evt (v : Channel Word) : (s.withRsp v).evt = s.evt := rfl
@[simp] theorem State.withRsp_rsp (v : Channel Word) : (s.withRsp v).rsp = v := rfl
@[simp] theorem State.withRsp_rst (v : Channel Word) : (s.withRsp v).rst = s.rst := rfl
@[simp] theorem State.withRsp_draws (v : Channel Word) : (s.withRsp v).draws = s.draws := rfl
@[simp] theorem State.withRsp_serial (v : Channel Word) : (s.withRsp v).serial = s.serial := rfl

@[simp] theorem State.withRst_core (v : Bool) : (s.withRst v).core = s.core := rfl
@[simp] theorem State.withRst_cmd (v : Bool) : (s.withRst v).cmd = s.cmd := rfl
@[simp] theorem State.withRst_din (v : Bool) : (s.withRst v).din = s.din := rfl
@[simp] theorem State.withRst_dout (v : Bool) : (s.withRst v).dout = s.dout := rfl
@[simp] theorem State.withRst_evt (v : Bool) : (s.withRst v).evt = s.evt := rfl
@[simp] theorem State.withRst_rsp (v : Bool) : (s.withRst v).rsp = s.rsp := rfl
@[simp] theorem State.withRst_rst (v : Bool) : (s.withRst v).rst = v := rfl
@[simp] theorem State.withRst_draws (v : Bool) : (s.withRst v).draws = s.draws := rfl
@[simp] theorem State.withRst_serial (v : Bool) : (s.withRst v).serial = s.serial := rfl

@[simp] theorem State.drawn_core : s.drawn.core = s.core := rfl
@[simp] theorem State.drawn_cmd : s.drawn.cmd = s.cmd := rfl
@[simp] theorem State.drawn_din : s.drawn.din = s.din := rfl
@[simp] theorem State.drawn_dout : s.drawn.dout = s.dout := rfl
@[simp] theorem State.drawn_evt : s.drawn.evt = s.evt := rfl
@[simp] theorem State.drawn_rsp : s.drawn.rsp = s.rsp := rfl
@[simp] theorem State.drawn_rst : s.drawn.rst = s.rst := rfl
@[simp] theorem State.drawn_draws : s.drawn.draws = s.draws + 1 := rfl
@[simp] theorem State.drawn_serial : s.drawn.serial = s.serial := rfl

@[simp] theorem State.endCommand_core : s.endCommand.core = .idle := rfl
@[simp] theorem State.endCommand_cmd : s.endCommand.cmd = s.cmd := rfl
@[simp] theorem State.endCommand_din : s.endCommand.din = s.din := rfl
@[simp] theorem State.endCommand_dout : s.endCommand.dout = s.dout := rfl
@[simp] theorem State.endCommand_evt : s.endCommand.evt = s.evt := rfl
@[simp] theorem State.endCommand_rsp : s.endCommand.rsp = s.rsp := rfl
@[simp] theorem State.endCommand_rst : s.endCommand.rst = s.rst := rfl
@[simp] theorem State.endCommand_draws : s.endCommand.draws = s.draws := rfl
@[simp] theorem State.endCommand_serial : s.endCommand.serial = s.serial + 1 := rfl

@[simp] theorem Channel.put_items {α : Type} (c : Channel α) (xs : List α) : (c.put xs).items = c.items ++ xs := rfl
@[simp] theorem Channel.put_capacity {α : Type} (c : Channel α) (xs : List α) : (c.put xs).capacity = c.capacity := rfl
@[simp] theorem Channel.take_items {α : Type} (c : Channel α) (n : Nat) : (c.take n).items = c.items.drop n := rfl
@[simp] theorem Channel.take_capacity {α : Type} (c : Channel α) (n : Nat) : (c.take n).capacity = c.capacity := rfl
@[simp] theorem Channel.abandon_capacity {α : Type} (c : Channel α) (n : Nat) (xs : List α) :
    (c.abandon n xs).capacity = c.capacity := rfl

@[simp] theorem placedFor_value (n : Nat) (b : Byte) : (placedFor n b).value = b := rfl
@[simp] theorem placedFor_serial (n : Nat) (b : Byte) : (placedFor n b).serial = n := rfl

end Sys2Proof.Machine
end

