-- ==== Sys2Proof/Laws/Ops.lean ====
section
/-! SUPPORT. What the shared operations do, said once: the channels, delivering an answer, and carrying a command. -/

namespace Sys2Proof.Machine

/-! ### Channels -/

section Channels

variable {α : Type} (c : Channel α)

@[simp] theorem Channel.accepts_zero : c.accepts 0 = 0 := by
  unfold Channel.accepts; split <;> simp

@[simp] theorem Channel.hasRoom_zero : c.hasRoom 0 = true := by simp [Channel.hasRoom]

theorem Channel.accepts_le (n : Nat) : c.accepts n ≤ n := by
  unfold Channel.accepts; split <;> omega

@[simp] theorem Channel.accepts_accepts (n : Nat) : c.accepts (c.accepts n) = c.accepts n := by
  simp only [Channel.accepts]; cases c.capacity <;> simp

theorem Channel.accepts_of_hasRoom {n : Nat} (h : c.hasRoom n = true) : c.accepts n = n := by
  simpa [Channel.hasRoom] using h

theorem Channel.hasRoom_mono {m n : Nat} (h : c.hasRoom n = true) (hm : m ≤ n) : c.hasRoom m = true := by
  simp only [Channel.hasRoom, Channel.accepts, beq_iff_eq] at *
  split <;> simp_all
  omega

@[simp] theorem Channel.put_nil : c.put [] = c := by simp [Channel.put]

@[simp] theorem Channel.put_put (xs ys : List α) : (c.put xs).put ys = c.put (xs ++ ys) := by simp [Channel.put]

theorem Channel.within_put {xs : List α} (h : c.within = true) (hx : xs.length ≤ c.accepts xs.length) :
    (c.put xs).within = true := by
  simp only [Channel.within, Channel.accepts, Channel.put] at *
  split <;> simp_all
  omega

theorem Channel.within_put_take {n : Nat} {xs : List α} (h : c.within = true) (hx : n ≤ c.accepts n) :
    (c.put (xs.take n)).within = true := by
  apply c.within_put h
  have : (xs.take n).length ≤ n := by simp
  exact (Channel.accepts_of_hasRoom c (c.hasRoom_mono (n := n) (by simp [Channel.hasRoom]; have := c.accepts_le n; omega)
    this)).ge

theorem Channel.within_take {n : Nat} (h : c.within = true) : (c.take n).within = true := by
  simp only [Channel.within, Channel.take] at *
  split <;> simp_all
  omega

theorem Channel.within_abandon {n : Nat} {xs : List α} (h : c.within = true) : (c.abandon n xs).within = true := by
  unfold Channel.abandon
  have hk : ({ c with items := c.items.take (c.items.length - n) } : Channel α).within = true := by
    simp only [Channel.within] at *
    split <;> simp_all
    omega
  exact Channel.within_put_take _ hk (by rw [Channel.accepts_accepts])

end Channels

/-! ### Delivering: what every part of it keeps -/

/-- `b` is reached from `a` by delivering some of the answer: DOUT and EVT gain exactly what the answer loses, in order,
nothing else of the state but the count of draws changes, and the response words wait. -/
structure Delivers (a b : State × Outgoing) : Prop where
  core : b.1.core = a.1.core
  cmd : b.1.cmd = a.1.cmd
  din : b.1.din = a.1.din
  rst : b.1.rst = a.1.rst
  serial : b.1.serial = a.1.serial
  rsp : b.1.rsp = a.1.rsp
  words : b.2.words = a.2.words
  wordsSent : b.2.wordsSent = a.2.wordsSent
  out : ∃ n, n ≤ a.2.out.length ∧ b.1.dout = a.1.dout.put (a.2.out.take n) ∧ b.2.out = a.2.out.drop n ∧
    b.2.outSent = a.2.outSent + n
  events : ∃ n, n ≤ a.2.events.length ∧ b.1.evt = a.1.evt.put (a.2.events.take n) ∧
    b.2.events = a.2.events.drop n ∧ b.2.eventsSent = a.2.eventsSent + n
  dout_within : a.1.dout.within = true → b.1.dout.within = true
  evt_within : a.1.evt.within = true → b.1.evt.within = true

theorem Delivers.refl (a : State × Outgoing) : Delivers a a :=
  ⟨rfl, rfl, rfl, rfl, rfl, rfl, rfl, rfl, ⟨0, by simp⟩, ⟨0, by simp⟩, id, id⟩

theorem take_append_take_drop {α : Type} (xs : List α) (m n : Nat) :
    xs.take m ++ (xs.drop m).take n = xs.take (m + n) := by
  rw [List.take_add]

theorem Delivers.trans {a b c : State × Outgoing} (h : Delivers a b) (k : Delivers b c) : Delivers a c := by
  obtain ⟨n, hn, hd, ho, hs⟩ := h.out
  obtain ⟨m, hm, kd, ko, ks⟩ := k.out
  obtain ⟨n', hn', hd', ho', hs'⟩ := h.events
  obtain ⟨m', hm', kd', ko', ks'⟩ := k.events
  refine ⟨k.core.trans h.core, k.cmd.trans h.cmd, k.din.trans h.din, k.rst.trans h.rst,
    k.serial.trans h.serial, k.rsp.trans h.rsp,
    k.words.trans h.words, k.wordsSent.trans h.wordsSent, ⟨n + m, ?_, ?_, ?_, ?_⟩, ⟨n' + m', ?_, ?_, ?_, ?_⟩,
    fun w => k.dout_within (h.dout_within w), fun w => k.evt_within (h.evt_within w)⟩
  · rw [ho] at hm; simp at hm; omega
  · rw [kd, hd, ho, Channel.put_put, take_append_take_drop]
  · rw [ko, ho, List.drop_drop]
  · rw [ks, hs]; omega
  · rw [ho'] at hm'; simp at hm'; omega
  · rw [kd', hd', ho', Channel.put_put, take_append_take_drop]
  · rw [ko', ho', List.drop_drop]
  · rw [ks', hs']; omega

theorem delivers_drawn (s : State) (o : Outgoing) : Delivers (s, o) (s.drawn, o) :=
  ⟨rfl, rfl, rfl, rfl, rfl, rfl, rfl, rfl, ⟨0, by simp⟩, ⟨0, by simp⟩, id, id⟩

theorem delivers_sendBytes (s : State) (o : Outgoing) {n : Nat} (hn : n ≤ o.out.length)
    (h : s.dout.hasRoom n = true) : Delivers (s, o) (s.sendBytes o n) :=
  ⟨rfl, rfl, rfl, rfl, rfl, rfl, rfl, rfl, ⟨n, hn, rfl, rfl, by simp [State.sendBytes, hn]⟩, ⟨0, by simp [State.sendBytes]⟩,
    fun w => Channel.within_put_take _ w (s.dout.accepts_of_hasRoom h).ge, id⟩

theorem delivers_sendEvents (s : State) (o : Outgoing) {n : Nat} (hn : n ≤ o.events.length)
    (h : s.evt.hasRoom n = true) : Delivers (s, o) (s.sendEvents o n) :=
  ⟨rfl, rfl, rfl, rfl, rfl, rfl, rfl, rfl, ⟨0, by simp [State.sendEvents]⟩, ⟨n, hn, rfl, rfl, by simp [State.sendEvents, hn]⟩,
    id, fun w => Channel.within_put_take _ w (s.evt.accepts_of_hasRoom h).ge⟩

theorem delivers_sendInterleaved (fuel : Nat) (s : State) (o : Outgoing) :
    Delivers (s, o) (sendInterleaved fuel s o) := by
  induction fuel generalizing s o with
  | zero => exact .refl _
  | succ fuel ih =>
    unfold sendInterleaved
    split
    · exact .refl _
    · split
      · exact (delivers_sendBytes s o (by simp_all) ‹_›).trans (ih _ _)
      · exact .refl _
    · split
      · exact (delivers_sendEvents s o (by simp_all) ‹_›).trans (ih _ _)
      · exact .refl _
    · split
      · split
        · exact (delivers_sendEvents s o (by simp_all) ‹_›).trans ((delivers_drawn _ _).trans (ih _ _))
        · exact delivers_drawn s o
      · split
        · exact (delivers_sendBytes s o (by simp_all) ‹_›).trans ((delivers_drawn _ _).trans (ih _ _))
        · exact delivers_drawn s o

/-- When both channels have room for all of it, all of the output is delivered. -/
theorem sendOutput_of_room (s : State) (o : Outgoing) (hd : s.dout.hasRoom o.out.length = true)
    (he : s.evt.hasRoom o.events.length = true) :
    sendOutput s o = ((s.withDout (s.dout.put o.out)).withEvt (s.evt.put o.events),
      { o with out := [], events := [], outSent := o.outSent + o.out.length,
               eventsSent := o.eventsSent + o.events.length }) := by
  simp [sendOutput, hd, he, State.sendBytes, State.sendEvents]

theorem delivers_sendOutput (s : State) (o : Outgoing) : Delivers (s, o) (sendOutput s o) := by
  unfold sendOutput
  split
  · rename_i h
    simp only [Bool.and_eq_true] at h
    exact (delivers_sendBytes s o le_rfl h.1).trans (delivers_sendEvents _ _ le_rfl h.2)
  · exact delivers_sendInterleaved _ _ _

/-- The delivery loop stops only when everything has been delivered or the channel of an element that is left is
full. -/
theorem sendInterleaved_stops (fuel : Nat) (s : State) (o : Outgoing) (h : o.out.length + o.events.length ≤ fuel) :
    (sendInterleaved fuel s o).2.outputDone = true ∨
      ((sendInterleaved fuel s o).2.out ≠ [] ∧ (sendInterleaved fuel s o).1.dout.hasRoom 1 = false) ∨
      ((sendInterleaved fuel s o).2.events ≠ [] ∧ (sendInterleaved fuel s o).1.evt.hasRoom 1 = false) := by
  induction fuel generalizing s o with
  | zero =>
    left
    have h1 : o.out = [] := List.length_eq_zero_iff.mp (by omega)
    have h2 : o.events = [] := List.length_eq_zero_iff.mp (by omega)
    simp [sendInterleaved, Outgoing.outputDone, h1, h2]
  | succ fuel ih =>
    unfold sendInterleaved
    split
    · left; simp_all [Outgoing.outputDone]
    · split
      · apply ih; simp_all [State.sendBytes]
      · simp_all
    · split
      · apply ih; simp_all [State.sendEvents]
      · simp_all
    · split
      · split
        · apply ih; simp_all [State.sendEvents]; omega
        · simp_all
      · split
        · apply ih; simp_all [State.sendBytes]; omega
        · simp_all

theorem sendOutput_stops (s : State) (o : Outgoing) :
    (sendOutput s o).2.outputDone = true ∨
      ((sendOutput s o).2.out ≠ [] ∧ (sendOutput s o).1.dout.hasRoom 1 = false) ∨
      ((sendOutput s o).2.events ≠ [] ∧ (sendOutput s o).1.evt.hasRoom 1 = false) := by
  by_cases h : (s.dout.hasRoom o.out.length && s.evt.hasRoom o.events.length) = true
  · simp only [Bool.and_eq_true] at h
    left
    rw [sendOutput_of_room s o h.1 h.2]
    simp [Outgoing.outputDone]
  · unfold sendOutput
    rw [if_neg h]
    exact sendInterleaved_stops _ _ _ le_rfl

/-! ### Delivering a whole answer -/

@[simp] theorem Outgoing.outputDone_words (o : Outgoing) (ws : List Word) (n : Nat) :
    Outgoing.outputDone { o with words := ws, wordsSent := n } = o.outputDone := rfl

/-- Everything `deliver` can do: output and events go as `sendOutput` says, then as many response words as RSP has room
for if no output is left, and the core is idle exactly when nothing is left. -/
theorem deliver_cases (s : State) (d : Descriptor) (payload : List Byte) (o : Outgoing) :
    ∃ s₁ o₁ n, sendOutput s o = (s₁, o₁) ∧ Delivers (s, o) (s₁, o₁) ∧ n ≤ o₁.words.length ∧
      (o₁.outputDone = false → n = 0) ∧ (o₁.outputDone = true → n = s₁.rsp.accepts o₁.words.length) ∧
      n ≤ s₁.rsp.accepts n ∧
      s.deliver d payload o =
        if (o₁.outputDone && (o₁.words.drop n).isEmpty) = true then
          (s₁.withRsp (s₁.rsp.put (o₁.words.take n))).endCommand
        else (s₁.withRsp (s₁.rsp.put (o₁.words.take n))).withCore
          (.sending d payload { o₁ with words := o₁.words.drop n, wordsSent := o₁.wordsSent + n }) := by
  have hD := delivers_sendOutput s o
  generalize h : sendOutput s o = so at hD
  obtain ⟨s₁, o₁⟩ := so
  by_cases hdone : o₁.outputDone = true
  · refine ⟨s₁, o₁, s₁.rsp.accepts o₁.words.length, rfl, hD, s₁.rsp.accepts_le _, by simp [hdone], by simp, by rw [Channel.accepts_accepts], ?_⟩
    · have hn : s₁.rsp.accepts o₁.words.length ≤ o₁.words.length := s₁.rsp.accepts_le _
      simp only [State.deliver, h, sendResponse, hdone, if_true, State.sendWords, Outgoing.done,
        Outgoing.outputDone_words, List.length_take, Nat.min_eq_left hn, Bool.true_and]
  · refine ⟨s₁, o₁, 0, rfl, hD, by simp, by simp, by simp [hdone], by simp, ?_⟩
    have hf : o₁.outputDone = false := by simpa using hdone
    simp [State.deliver, h, sendResponse, hf, Outgoing.done, State.withRsp]

/-- With room for all of it, an answer is delivered whole and the core is idle. -/
theorem deliver_of_room (s : State) (d : Descriptor) (payload : List Byte) (o : Outgoing)
    (hd : s.dout.hasRoom o.out.length = true) (he : s.evt.hasRoom o.events.length = true)
    (hr : s.rsp.hasRoom o.words.length = true) :
    s.deliver d payload o =
      { s with
        core := .idle, serial := s.serial + 1, dout := s.dout.put o.out, evt := s.evt.put o.events, rsp := s.rsp.put o.words } := by
  have hr' := s.rsp.accepts_of_hasRoom hr
  simp [State.deliver, sendOutput_of_room s o hd he, sendResponse, Outgoing.outputDone, State.sendWords,
    Outgoing.done, hr', State.endCommand, State.withRsp, State.withDout, State.withEvt]

/-! ### Carrying a command -/

theorem ownsBytes_iff {s : State} {n : Nat} :
    s.ownsBytes n = true ↔ ∀ b, b ∈ s.din.take n → b.serial = s.serial := by
  simp [State.ownsBytes]

/-- Everything `receive` can do: go astray on a byte placed for another command, wait for more payload, or deliver the
answer to the complete payload. -/
theorem receive_cases (s : State) (d : Descriptor) (len : Nat) (respond : List Byte → Reply) (payload : List Byte) :
    (s.ownsBytes (len - payload.length) = false ∧ s.receive d len respond payload =
      (s.withDin (s.din.drop (len - payload.length))).withCore
        (.strayed d (payload.map (placedFor s.serial) ++ s.din.take (len - payload.length)))) ∨
    (s.ownsBytes (len - payload.length) = true ∧ payload.length + s.din.length < len ∧
      s.receive d len respond payload =
        (s.withDin []).withCore (.receiving d (payload ++ s.din.map (·.value)))) ∨
    (s.ownsBytes (len - payload.length) = true ∧ len ≤ payload.length + s.din.length ∧
      s.receive d len respond payload =
        (s.withDin (s.din.drop (len - payload.length))).deliver d
          (payload ++ (s.din.take (len - payload.length)).map (·.value))
          (respond (payload ++ (s.din.take (len - payload.length)).map (·.value))).start) := by
  simp only [State.receive, List.length_append, List.length_map, List.length_take]
  by_cases ho : s.ownsBytes (len - payload.length) = true
  · refine .inr ?_
    by_cases hl : payload.length + s.din.length < len
    · refine .inl ⟨ho, hl, ?_⟩
      have ht : s.din.take (len - payload.length) = s.din := List.take_of_length_le (by omega)
      have hd : s.din.drop (len - payload.length) = [] := List.drop_eq_nil_of_le (by omega)
      rw [ht, hd, if_neg (by simp [ho]), if_pos (by omega)]
    · exact .inr ⟨ho, by omega, by rw [if_neg (by simp [ho]), if_neg (by omega)]⟩
  · exact .inl ⟨by simpa using ho, by rw [if_pos (by simpa using ho)]⟩

/-- Everything `runCommand` can do, by the state of the core. -/
theorem runCommand_cases (d : Descriptor) (len : Nat) (respond : List Byte → Reply) (s : State) :
    (s.takesInput = true ∧ ∃ d', (s.core = .idle → d' = d) ∧ (∀ e p, s.core = .receiving e p → d' = e) ∧
      runCommand d len respond s = .next (s.receive d' len respond s.received)) ∨
    (∃ e p o, s.core = .sending e p o ∧ runCommand d len respond s = .next (s.deliver e p o)) ∨
    (∃ e p, s.core = .strayed e p ∧ runCommand d len respond s = .refused .strayPayload) := by
  cases hc : s.core with
  | idle => exact .inl ⟨by simp [State.takesInput, hc], d, by simp, by simp, by simp [runCommand, State.received, hc]⟩
  | receiving e p =>
    exact .inl ⟨by simp [State.takesInput, hc], e, by simp, by simp, by simp [runCommand, State.received, hc]⟩
  | sending e p o => exact .inr (.inl ⟨e, p, o, rfl, by simp [runCommand, hc]⟩)
  | strayed e p => exact .inr (.inr ⟨e, p, rfl, by simp [runCommand, hc]⟩)

/-- A command whose payload is there and whose answer has room ends in `finish`. -/
theorem runCommand_completes (d : Descriptor) (len : Nat) (respond : List Byte → Reply) (s : State)
    (ha : s.accepting len) (hroom : s.hasRoomFor (respond (s.payload len)).out.length
      (respond (s.payload len)).events.length) (hw : (respond (s.payload len)).words.length = 4) :
    runCommand d len respond s = .next (s.finish len (respond (s.payload len))) := by
  obtain ⟨hs, hl, hlen, ho⟩ := ha
  obtain ⟨h1, h2, h3⟩ := hroom
  obtain ⟨-, d', -, -, heq⟩ | ⟨e, p, o, hc, -⟩ | ⟨e, p, hc, -⟩ := runCommand_cases d len respond s
  · rw [heq]
    obtain ⟨h, -⟩ | ⟨-, h, -⟩ | ⟨-, -, h⟩ := receive_cases s d' len respond s.received
    · simp [ho] at h
    · omega
    · rw [h, deliver_of_room _ _ _ _ h1 h2 (by rw [← hw] at h3; exact h3)]
      rfl
  · simp [State.takesInput, hc] at hs
  · simp [State.takesInput, hc] at hs

/-- A command whose payload is not all there takes what has arrived and waits. -/
theorem receive_waits (s : State) (d : Descriptor) (len : Nat) (respond : List Byte → Reply) (payload : List Byte)
    (h : payload.length + s.din.length < len) (ho : s.ownsBytes (len - payload.length) = true) :
    s.receive d len respond payload = (s.withDin []).withCore (.receiving d (payload ++ s.din.map (·.value))) := by
  obtain ⟨h', -⟩ | ⟨-, -, h'⟩ | ⟨-, h', -⟩ := receive_cases s d len respond payload
  · simp [ho] at h'
  · exact h'
  · omega

/-- Every command's meaning is `runCommand` with the command's answer. -/
theorem exec_eq_runCommand (i : Instr) (s : State) :
    exec i s = runCommand (encode i) i.len (replyFor Config.hardware i) s := by
  cases i <;> rfl

theorem payload_length {s : State} {len : Nat} (h : s.accepting len) : (s.payload len).length = len := by
  obtain ⟨-, h1, h2, -⟩ := h
  simp [State.payload, State.nextBytes]; omega

/-- A command whose payload is there and whose answer has room completes with that answer. -/
theorem exec_completes (i : Instr) (s : State) (r : Reply) (ha : s.accepting i.len)
    (hr : replyFor Config.hardware i (s.payload i.len) = r) (hw : r.words.length = 4)
    (hroom : s.hasRoomFor r.out.length r.events.length) : exec i s = .next (s.finish i.len r) := by
  subst hr
  rw [exec_eq_runCommand, runCommand_completes _ _ _ _ ha hroom hw]

/-- What delivering leaves alone, and that nothing of the answer is lost, repeated or reordered. -/
theorem deliver_frame (s : State) (d : Descriptor) (payload : List Byte) (o : Outgoing) :
    let t := s.deliver d payload o
    t.cmd = s.cmd ∧ t.rst = s.rst ∧ t.din = s.din ∧ t.dout.capacity = s.dout.capacity ∧
    t.evt.capacity = s.evt.capacity ∧ t.rsp.capacity = s.rsp.capacity ∧
    t.dout.items ++ t.pendingOut = s.dout.items ++ o.out ∧
    t.evt.items ++ t.pendingEvents = s.evt.items ++ o.events ∧
    t.rsp.items ++ t.pendingWords = s.rsp.items ++ o.words ∧
    s.dout.items <+: t.dout.items ∧ s.evt.items <+: t.evt.items ∧ s.rsp.items <+: t.rsp.items ∧
    (o.events = [] → t.evt = s.evt) ∧ t.serial = (if t.core = .idle then s.serial + 1 else s.serial) := by
  obtain ⟨s₁, o₁, n, -, hD, -, -, -, -, heq⟩ := deliver_cases s d payload o
  obtain ⟨m, -, hdo, ho, -⟩ := hD.out
  obtain ⟨k, -, hev, hoe, -⟩ := hD.events
  have a1 := hD.cmd; have a2 := hD.rst; have a3 := hD.din; have a4 := hD.rsp; have a5 := hD.words
  have a6 := hD.serial
  simp only at ho hoe hdo hev a1 a2 a3 a4 a5 a6
  simp only [heq]
  by_cases hd : (o₁.outputDone && (o₁.words.drop n).isEmpty) = true
  · rw [if_pos hd]
    simp only [Outgoing.outputDone, Bool.and_eq_true, List.isEmpty_iff, ho, hoe, a5, List.drop_eq_nil_iff] at hd
    simp [State.pendingOut, State.pendingEvents, State.pendingWords, a1, a2, a3, a4, a5, a6, hdo, hev, hd]
    intro h; simp [h]
  · rw [if_neg hd]
    simp [State.pendingOut, State.pendingEvents, State.pendingWords, a1, a2, a3, a4, a5, a6, hdo, hev, ho, hoe]
    intro h; simp [h]

/-- What `fetch` can answer: the descriptor a busy core holds, or the four words at the head of CMD. -/
theorem fetch_cases {s t : State} {d : Descriptor} (h : fetch s = some (d, t)) :
    (∃ p, s.core = .receiving d p ∧ t = s) ∨ (∃ p o, s.core = .sending d p o ∧ t = s) ∨
    (∃ p, s.core = .strayed d p ∧ t = s) ∨
    (∃ rest, s.core = .idle ∧ s.cmd = d.words ++ rest ∧ t = { s with cmd := rest, core := .receiving d [] }) := by
  unfold fetch at h
  split at h
  · cases h; exact .inl ⟨_, ‹_›, rfl⟩
  · cases h; exact .inr (.inl ⟨_, _, ‹_›, rfl⟩)
  · cases h; exact .inr (.inr (.inl ⟨_, ‹_›, rfl⟩))
  · split at h
    · cases h; exact .inr (.inr (.inr ⟨_, ‹_›, ‹_›, rfl⟩))
    · cases h

/-- A descriptor's `LEN` is that of the command it decodes to (R63). -/
theorem decode_len {d : Descriptor} {i : Instr} (h : decode d = .command i) : i.len = d.len := by
  simp only [decode, decodeFor, requireUnused] at h
  repeat' split at h
  all_goals (try cases h) <;> rfl

/-- On a core that has fetched a descriptor `runCommand` reads only the descriptor the core holds. -/
theorem runCommand_of_fetch {s t : State} {d e : Descriptor} (h : fetch s = some (d, t)) (len : Nat)
    (respond : List Byte → Reply) : runCommand e len respond t = runCommand d len respond t := by
  obtain ⟨p, hc, rfl⟩ | ⟨p, o, hc, rfl⟩ | ⟨p, hc, rfl⟩ | ⟨rest, -, -, rfl⟩ := fetch_cases h <;> simp [runCommand, *]

/-- What a step is on a core that has a descriptor to work on, the answer being that of `answer`. -/
theorem step_of_fetch {s t : State} {d : Descriptor} (hr : s.rst = false) (hf : fetch s = some (d, t))
    (hd : decode d ≠ .refused) :
    ∃ respond, (∀ payload, answer d payload = some (respond payload)) ∧ step s = runCommand d d.len respond t := by
  cases hv : decode d with
  | command i =>
    refine ⟨replyFor Config.hardware i, by simp [answer, hv], ?_⟩
    simp only [step, hr, hf, hv]
    rw [exec_eq_runCommand, decode_len hv, runCommand_of_fetch hf]
    rfl
  | illegal c => exact ⟨fun _ => faultReply .illegalCmd, by simp [answer, hv], by simp [step, hr, hf, hv, execIllegal]⟩
  | refused => exact absurd hv hd

/-- Everything a step that gives a next state can be: reset, waiting for a descriptor, or carrying the fetched
descriptor towards its answer. -/
theorem step_cases {s t : State} (h : step s = .next t) :
    (s.rst = true ∧ t = s.resetCore) ∨ (s.rst = false ∧ fetch s = none ∧ t = s) ∨
    (s.rst = false ∧ ∃ d s' respond, fetch s = some (d, s') ∧ decode d ≠ .refused ∧
      (∀ payload, answer d payload = some (respond payload)) ∧ runCommand d d.len respond s' = .next t) := by
  by_cases hr : s.rst = true
  · simp only [step, hr, if_true] at h
    cases h; exact .inl ⟨hr, rfl⟩
  have hr' : s.rst = false := by simpa using hr
  refine .inr ?_
  cases hf : fetch s with
  | none =>
    simp only [step, hr', hf] at h
    cases h; exact .inl ⟨hr', rfl, rfl⟩
  | some dt =>
    obtain ⟨d, s'⟩ := dt
    have hd : decode d ≠ .refused := by
      intro hv
      simp [step, hr', hf, hv] at h
    obtain ⟨respond, ha, hs⟩ := step_of_fetch hr' hf hd
    exact .inr ⟨hr', d, s', respond, rfl, hd, ha, by rw [← hs, h]⟩

end Sys2Proof.Machine
end

