-- ==== Sys2Proof/Laws/PerInstr.lean ====
section
/-! SUPPORT. A law of every command as syntax, one lemma per constructor: its descriptor has the table's W0, zero in the
fields R64 says the command does not use, and its `LEN` in W3. -/

namespace Sys2Proof.Laws.DescriptorFields

/-- The W0 of a command in the opcode map (R66); the mask is the whole word. -/
def opcode : Instr → Nat
  | .unpack _ => 0x01
  | .expand _ => 0x02
  | .dec _ _ => 0x03
  | .quant _ => 0x04
  | .pack _ _ _ => 0x05
  | .enc _ _ _ => 0x06

/-- R64: WIDTH is an operand of the command. -/
def usesWidth : Instr → Bool
  | .unpack _ => false
  | .expand _ => false
  | .dec _ _ => true
  | .quant _ => false
  | .pack _ _ _ => true
  | .enc _ _ _ => true

/-- R64: HEIGHT is an operand of the command. -/
def usesHeight : Instr → Bool
  | .unpack _ => false
  | .expand _ => false
  | .dec _ _ => false
  | .quant _ => false
  | .pack _ _ _ => true
  | .enc _ _ _ => true

/-- The law (R64, R66): of a well-formed command. -/
def Statement (i : Instr) : Prop :=
  i.wellFormed = true →
    (encode i).w0.toNat = opcode i ∧ (usesWidth i = false → (encode i).w1 = 0) ∧
    (usesHeight i = false → (encode i).w2 = 0) ∧ (encode i).w3.toNat = i.len

theorem len_word {len : Nat} (h : lenInRange Config.hardware len = true) : (BitVec.ofNat 32 len).toNat = len := by
  simp [lenInRange] at h
  simp; omega

theorem unpack (len : Nat) : Statement (.unpack len) := fun h => ⟨rfl, fun _ => rfl, fun _ => rfl, len_word h⟩

theorem expand (len : Nat) : Statement (.expand len) := fun h => ⟨rfl, fun _ => rfl, fun _ => rfl, len_word h⟩

theorem dec (width : Int) (len : Nat) : Statement (.dec width len) := fun h =>
  ⟨rfl, nofun, fun _ => rfl, len_word (by simp_all [Instr.wellFormed, Instr.wellFormedFor])⟩

theorem quant (len : Nat) : Statement (.quant len) := fun h => ⟨rfl, fun _ => rfl, fun _ => rfl, len_word h⟩

theorem pack (width : Int) (height len : Nat) : Statement (.pack width height len) := fun h =>
  ⟨rfl, nofun, nofun, len_word (by simp_all [Instr.wellFormed, Instr.wellFormedFor])⟩

theorem enc (width : Int) (height len : Nat) : Statement (.enc width height len) := fun h =>
  ⟨rfl, nofun, nofun, len_word (by simp_all [Instr.wellFormed, Instr.wellFormedFor])⟩

end Sys2Proof.Laws.DescriptorFields
end

