-- ==== Sys2Proof/Tests/Slice0.lean ====
section
/-! SUPPORT. Tests: ill-formed terms, descriptors written out from the encodings, vectors of 95_test_vectors, and for
every statement with hypotheses a state that meets them. Expected values are the spec's. -/

namespace Sys2Proof.Tests

open Sys2Proof.Machine Sys2Proof.Rules

/-! ### Well-formedness: one ill-formed term per check (R62, R63, R73 (d)) -/

theorem test_wellFormed_accepts : (Instr.enc (-2147483648) 4294967295 268435455).wellFormed = true := by decide
theorem test_wellFormed_width_low : (Instr.dec (-2147483649) 0).wellFormed = false := by decide
theorem test_wellFormed_width_high : (Instr.pack 2147483648 0 0).wellFormed = false := by decide
theorem test_wellFormed_height : (Instr.enc 1 4294967296 0).wellFormed = false := by decide
theorem test_wellFormed_len : (Instr.unpack 268435456).wellFormed = false := by decide
theorem test_wellFormed_len_field :
    (Instr.quant 4294967296).wellFormedFor { Config.hardware with lmax := 4294967296 } = false := by decide
theorem test_hardware_parameters_legal : Config.hardware.legal = true := by decide

/-! ### Decoding words written out from R67 to R72, one per command, through the byte form of R43 -/

theorem test_decode_unpack : decodeTableWord 128 0x00000003000000000000000000000001 = some (.unpack 3) := by decide
theorem test_decode_expand : decodeTableWord 128 0x00000004000000000000000000000002 = some (.expand 4) := by decide
theorem test_decode_dec : decodeTableWord 128 0x0000000200000000FFFFFFFF00000003 = some (.dec (-1) 2) := by decide
theorem test_decode_quant : decodeTableWord 128 0x0000001C000000000000000000000004 = some (.quant 28) := by decide
theorem test_decode_pack : decodeTableWord 128 0x00000006000000020000000300000005 = some (.pack 3 2 6) := by decide
theorem test_decode_enc : decodeTableWord 128 0x00000008000000010000000200000006 = some (.enc 2 1 8) := by decide

/-- R43, V-DEC-14's descriptor as bytes: W1 = 16 has its bits 7:0 in byte 4. -/
theorem test_descriptor_bytes :
    (encode (.dec 16 4)).bytes = [3, 0, 0, 0, 16, 0, 0, 0, 0, 0, 0, 0, 4, 0, 0, 0] := by decide

/-- V-ILL-1, V-ILL-2, V-ILL-5, V-ILL-8, V-ILL-9. -/
theorem test_illegal_descriptors :
    decode ⟨0, 0, 0, 0⟩ = .illegal .reservedOpcode ∧ decode ⟨7, 0, 0, 0⟩ = .illegal .reservedOpcode ∧
    decode ⟨0x80000003, 8, 0, 2⟩ = .illegal .reservedBits ∧ decode ⟨3, 0, 5, 0⟩ = .illegal .unusedField ∧
    decode ⟨1, 0, 0, 0x10000000⟩ = .refused := by decide

/-! ### Vectors: one step from reset -/

/-- What one step delivers for a command issued to the core after reset; `none` unless the core is idle again with both
input channels empty. -/
def oneStep (c : Command) : Option Reply :=
  match step (State.reset.hostIssue c) with
  | .next t =>
    if t.core = .idle ∧ t.cmd = [] ∧ t.din = [] then some ⟨t.dout.items, t.evt.items, t.rsp.items⟩ else none
  | _ => none

/-- V-UNP-9: two pairs, pair order kept. -/
theorem test_unpack_two_pairs :
    oneStep (.unpack [0x1B, 0x2D, 0xE4, 0x4E]) =
      some ⟨[0, 0, 2, 1, 3, 2, 1, 3, 1, 3, 1, 0, 2, 3, 2, 0], [], [0, 0, 0, 16]⟩ := by decide
/-- V-UNP-4: the odd trailing byte is ignored. -/
theorem test_unpack_odd :
    oneStep (.unpack [0xB0, 0x50, 0x99]) = some ⟨[1, 2, 1, 3, 0, 0, 0, 0], [], [0, 0, 0, 8]⟩ := by decide

/-- V-EXP-2: the whole table of R104. -/
theorem test_expand_table :
    oneStep (.expand [0, 1, 2, 3]) =
      some ⟨[0, 0, 0, 255, 0x55, 0x55, 0x55, 255, 0xAA, 0xAA, 0xAA, 255, 255, 255, 255, 255], [], [0, 0, 0, 16]⟩ := by
  decide
/-- V-EXP-5: a bad last byte voids the whole output. -/
theorem test_expand_bad_last : oneStep (.expand [0, 1, 2, 3, 0x80]) = some ⟨[], [], [5, 0, 0, 0]⟩ := by decide

/-- V-DEC-4: two rows of three, the last two pixels dropped; the events of R196. -/
theorem test_dec_truncates :
    oneStep (.dec 3 [0xB0, 0x50]) =
      some ⟨[0x55, 0x55, 0x55, 255, 0xAA, 0xAA, 0xAA, 255, 0x55, 0x55, 0x55, 255, 255, 255, 255, 255,
          0, 0, 0, 255, 0, 0, 0, 255], [0x0001, 0x6402], [0, 3, 2, 24]⟩ := by decide
/-- V-DEC-9: the width check precedes the empty-buffer case (C3). -/
theorem test_dec_zero_width : oneStep (.dec 0 []) = some ⟨[], [], [1, 0, 0, 0]⟩ := by decide

/-- V-QNT-2: every threshold on both channels. -/
theorem test_quant_thresholds :
    oneStep (.quant [0, 0, 0, 255, 0x54, 0x54, 0, 255, 0x55, 0x55, 0, 255, 0xA9, 0xA9, 0, 255, 0xAA, 0xAA, 0, 255,
      0xFE, 0xFE, 0, 255, 0xFF, 0xFF, 0, 255]) = some ⟨[0, 0, 3, 3, 0, 0, 3], [], [0, 0, 0, 7]⟩ := by decide
/-- V-QNT-3: R feeds bit 0, G feeds bit 1, B and A ignored. -/
theorem test_quant_channels :
    oneStep (.quant [0x55, 0, 7, 0, 0, 0x55, 0xC8, 0x0D, 0xFF, 0xAA, 1, 2, 0xAA, 0xFF, 3, 4]) =
      some ⟨[1, 2, 1, 2], [], [0, 0, 0, 4]⟩ := by decide

/-- V-PCK-4: rows are independent and each is padded. -/
theorem test_pack_odd_rows :
    oneStep (.pack 3 2 [1, 2, 3, 3, 2, 1]) = some ⟨[0x12, 0x30, 0x32, 0x10], [], [0, 0, 0, 4]⟩ := by decide
/-- V-PCK-8: the length check precedes the index check. -/
theorem test_pack_length_first : oneStep (.pack 2 1 [7]) = some ⟨[], [], [4, 0, 0, 0]⟩ := by decide

/-- V-ENC-5: each row padded separately; (84, 169) gives value 2. -/
theorem test_enc_odd_rows :
    oneStep (.enc 3 2 [0x55, 0x55, 0, 255, 0x55, 0x55, 0, 255, 0x55, 0x55, 0, 255, 0xFF, 0, 0, 255, 0, 0xFF, 0, 255,
      0x54, 0xA9, 0, 255]) = some ⟨[0x33, 0x30, 0x12, 0x20], [0x6403], [0, 0, 0, 4]⟩ := by decide
/-- V-ENC-12: the product does not wrap. -/
theorem test_enc_no_wrap : oneStep (.enc 65536 65536 []) = some ⟨[], [], [4, 0, 0, 0]⟩ := by decide

/-- V-ILL-3: the two payload bytes are consumed. -/
theorem test_illegal_consumes_payload :
    oneStep (.raw 0xFF 0 0 2 [1, 2]) = some ⟨[], [], [3, 0, 0, 0]⟩ := by decide

/-- An instruction placed by its table word alone runs as the first step after reset: DEC with `W1` = 0 (R182). -/
theorem test_withFetchWord_runs :
    step (State.reset.withFetchWord 32 3) = .next { State.reset with serial := 1, rsp := ⟨[1, 0, 0, 0], none⟩ } := rfl

/-! ### States that meet the statements' hypotheses -/

/-- The core after reset with a command issued to it. -/
def issued (c : Command) : State := State.reset.hostIssue c

/-- A core that has latched a descriptor and holds part of its payload, more of which stands on DIN. -/
def receivingState (i : Instr) (payload din : List Byte) : State :=
  { State.reset with core := .receiving (encode i) payload, din := din.map (placedFor 0) }

/-- R219: after a payload of one byte too many, the surplus byte is taken as the beginning of the next payload; nothing
is delivered for it, and the step after is refused (U11). -/
theorem test_surplus_is_taken_then_refused :
    step (((State.reset.hostIssue ⟨encode (.unpack 0), [7]⟩).withCmd (encode (.unpack 1)).words).endCommand) =
      .next { State.reset with core := .strayed (encode (.unpack 1)) [⟨7, 0⟩], serial := 1 } ∧
    step { State.reset with core := .strayed (encode (.unpack 1)) [⟨7, 0⟩], serial := 1 } =
      .refused .strayPayload := ⟨rfl, rfl⟩

/-- R217, R219: the rest of a payload may come after its descriptor, with no new descriptor. -/
theorem test_payload_in_two_pieces :
    step (receivingState (.unpack 2) [0x1B] []) = .next (receivingState (.unpack 2) [0x1B] []) ∧
    step ((receivingState (.unpack 2) [0x1B] []).hostPlacePayload 0 [0x2D]) =
      .next { State.reset with serial := 1, dout := ⟨[0, 0, 2, 1, 3, 2, 1, 3], none⟩, rsp := ⟨[0, 0, 0, 8], none⟩ } :=
  ⟨rfl, rfl⟩

/-- R212: a response of which three words had been delivered, one of them taken by the host, when reset cut it short:
with the word taken there are at most three after it. -/
theorem test_abandoned_response_is_short :
    ∃ t, step { State.reset with
        core := .sending (encode (.unpack 0)) [] ⟨[], [], [0], 0, 0, 3⟩, rsp := ⟨[0, 0], some 2⟩, rst := true } =
      .next t ∧ 1 + t.rsp.items.length < 4 := by
  refine ⟨_, rfl, ?_⟩
  simp [State.resetCore, State.abandon, Channel.abandon, Channel.put, Channel.accepts]
  omega

/-- UNPACK of V-UNP-3 with three of its eight bytes delivered and DOUT full, and a byte of the next payload on DIN. -/
def sendingState : State :=
  { State.reset with
    core := .sending (encode (.unpack 2)) [0xB0, 0x50] ⟨[3, 0, 0, 0, 0], [], [0, 0, 0, 8], 3, 0, 0⟩
    din := [placedFor 1 0x99]
    dout := ⟨[1, 2, 1], some 3⟩ }

theorem sendingState_inv : sendingState.Inv := by
  refine ⟨⟨rfl, rfl, .inl rfl, ⟨[1, 2, 1, 3, 0, 0, 0, 0], [], [0, 0, 0, 8]⟩, ?_, ?_⟩, ?_⟩ <;> decide

theorem witness_StepRunsDecodedCommand :
    (issued (.unpack [1, 2])).rst = false ∧ (issued (.unpack [1, 2])).core = .idle ∧
    (issued (.unpack [1, 2])).cmd = (encode (.unpack 2)).words ++ [] ∧
    decode (encode (.unpack 2)) = .command (.unpack 2) := by decide

theorem witness_BusyStepContinues_receiving :
    (receivingState (.unpack 2) [1] []).rst = false ∧
    (receivingState (.unpack 2) [1] []).core = .receiving (encode (.unpack 2)) [1] ∧
    decode (encode (.unpack 2)) = .command (.unpack 2) := by decide

theorem witness_BusyStepContinues_sending :
    sendingState.rst = false ∧
    sendingState.core =
      .sending (encode (.unpack 2)) [0xB0, 0x50] ⟨[3, 0, 0, 0, 0], [], [0, 0, 0, 8], 3, 0, 0⟩ := by decide

theorem witness_OverlongPayloadIsRefused :
    (issued (.raw 1 0 0 0x10000000 [])).rst = false ∧ (issued (.raw 1 0 0 0x10000000 [])).core = .idle ∧
    (issued (.raw 1 0 0 0x10000000 [])).cmd = (⟨1, 0, 0, 0x10000000⟩ : Descriptor).words ++ [] ∧
    268435455 < (0x10000000 : Word).toNat := by decide

theorem witness_CommandIsOneStep :
    (issued (.dec 8 [])).rst = false ∧ (issued (.dec 8 [])).core = .idle ∧
    (issued (.dec 8 [])).cmd = (encode (.dec 8 0)).words ++ [] ∧ (issued (.dec 8 [])).payloadReady (encode (.dec 8 0)).len ∧
    answer (encode (.dec 8 0)) ((issued (.dec 8 [])).nextBytes (encode (.dec 8 0)).len) =
      some ⟨[], [0x0001, 0x6402], [0, 8, 0, 0]⟩ ∧ (issued (.dec 8 [])).hasRoomFor 0 2 := by decide

theorem witness_IdleCoreWaits :
    State.reset.rst = false ∧ State.reset.core = .idle ∧ State.reset.cmd.length < 4 := by decide

theorem witness_CommandWaitsForMissingPayload :
    (receivingState (.unpack 4) [1] [2]).core = .receiving (encode (.unpack 4)) [1] ∧
    [(1 : Byte)].length + (receivingState (.unpack 4) [1] [2]).din.length < (Instr.unpack 4).len ∧
    (receivingState (.unpack 4) [1] [2]).ownsBytes ((Instr.unpack 4).len - [(1 : Byte)].length) = true := by decide

/-- A payload byte is missing and the next payload's first byte stands on DIN; U11's borrowed byte. -/
def borrowingState : State :=
  { receivingState (.unpack 2) [1] [] with din := [placedFor 1 2] }

theorem witness_StrayPayload :
    borrowingState.core = .receiving (encode (.unpack 2)) [1] ∧
    borrowingState.ownsBytes ((Instr.unpack 2).len - [(1 : Byte)].length) = false ∧
    ({ borrowingState with core := .strayed (encode (.unpack 2)) [placedFor 0 1, placedFor 1 2] } : State).rst = false ∧
    decode (encode (.unpack 2)) ≠ .refused := by decide
theorem witness_StrayPayload_idle :
    ({ State.reset with din := [placedFor 1 2] } : State).core = .idle ∧
    ({ State.reset with din := [placedFor 1 2] } : State).ownsBytes ((Instr.unpack 2).len - ([] : List Byte).length) =
      false := by decide

theorem witness_DisciplinedHost :
    (issued (.unpack [1, 2])).disciplined ∧ (issued (.unpack [1, 2])).rst = false ∧
    ∀ d t, fetch (issued (.unpack [1, 2])) = some (d, t) → decode d ≠ .refused := by
  refine ⟨⟨rfl, by decide⟩, rfl, ?_⟩
  intro d t h
  cases h
  decide

theorem witness_ExactPayloads :
    State.reset.supplied ∧ State.reset.cmd.length % 4 = 0 ∧
    [(1 : Byte)].length + [(2 : Byte)].length = (encode (.unpack 2)).len :=
  ⟨⟨rfl, rfl⟩, rfl, rfl⟩

/-- A disciplined core in mid-payload: one of its two bytes has been taken, the other is missing. -/
theorem witness_ExactPayloads_later :
    (receivingState (.unpack 2) [1] []).disciplined ∧ (receivingState (.unpack 2) [1] []).cmd.length % 4 = 0 ∧
    (receivingState (.unpack 2) [1] []).missingSerials = List.replicate [(2 : Byte)].length 0 ++ [] ∧
    (receivingState (.unpack 2) [1] []).rst = false ∧
    step (receivingState (.unpack 2) [1] []) = .next (receivingState (.unpack 2) [1] []) :=
  ⟨⟨rfl, by decide⟩, rfl, rfl, rfl, rfl⟩

/-- The step between the two pieces: the core takes the descriptor and the first piece, and waits. -/
theorem witness_ExactPayloads_between :
    step ((State.reset.hostPlaceWords (encode (.unpack 2)).words).hostPlacePayload State.reset.nextSerial [1]) =
      .next (receivingState (.unpack 2) [1] []) := rfl

/-- R212's case: an idle core after reset, a stale byte of the command abandoned on DIN and two leftover words on CMD. -/
theorem witness_ExactPayloads_flush :
    ({ State.reset with serial := 1, din := [placedFor 0 7], cmd := [1, 0] } : State).core = .idle ∧
    ¬ ({ State.reset with serial := 1, din := [placedFor 0 7], cmd := [1, 0] } : State).supplied :=
  ⟨rfl, fun h => by simpa [State.placedSerials, State.dueSerials, State.reset, serialsFor] using h.2⟩

theorem witness_BusyCoreLacks_strayed :
    borrowingState.Inv ∧ step borrowingState =
      .next { borrowingState with
        core := .strayed (encode (.unpack 2)) [placedFor 0 1, placedFor 1 2], din := [] } :=
  ⟨⟨⟨by decide, by decide⟩, by decide⟩, rfl⟩
theorem witness_BusyStepContinues_strayed :
    ({ borrowingState with core := .strayed (encode (.unpack 2)) [placedFor 1 2] } : State).core =
      .strayed (encode (.unpack 2)) [placedFor 1 2] := rfl
theorem witness_AbandonedStrayed :
    ({ borrowingState with core := .strayed (encode (.unpack 2)) [placedFor 1 2], rst := true } : State).rst = true := rfl
theorem witness_AnswerDelivered_astray :
    exec (.unpack 2) borrowingState =
      .next { borrowingState with
        core := .strayed (encode (.unpack 2)) [placedFor 0 1, placedFor 1 2], din := [] } ∧
    borrowingState.isSending = false ∧
    borrowingState.ownsBytes ((Instr.unpack 2).len - borrowingState.received.length) = false := ⟨rfl, by decide, by decide⟩

theorem witness_BusyCoreLacks_receiving :
    (receivingState (.unpack 4) [1] [2]).Inv ∧
    step (receivingState (.unpack 4) [1] [2]) = .next (receivingState (.unpack 4) [1, 2] []) :=
  ⟨⟨⟨by decide, by decide⟩, by decide⟩, rfl⟩

theorem witness_BusyCoreLacks_sending : sendingState.Inv ∧ step sendingState = .next sendingState :=
  ⟨sendingState_inv, rfl⟩

theorem witness_AssertedReset : (sendingState.hostReset true).rst = true := by decide

theorem witness_AbandonedCommand :
    (sendingState.hostReset true).Inv ∧ (sendingState.hostReset true).rst = true ∧
    (sendingState.hostReset true).core =
      .sending (encode (.unpack 2)) [0xB0, 0x50] ⟨[3, 0, 0, 0, 0], [], [0, 0, 0, 8], 3, 0, 0⟩ :=
  ⟨sendingState_inv, rfl, rfl⟩

theorem witness_AbandonedReceiver :
    ((receivingState (.unpack 4) [1] [2]).hostReset true).rst = true ∧
    ((receivingState (.unpack 4) [1] [2]).hostReset true).core = .receiving (encode (.unpack 4)) [1] := by decide

theorem witness_EncodedCommandDecodes :
    (Instr.pack (-2147483648) 4294967295 268435455).wellFormedFor Config.hardware = true := by decide

theorem witness_DecodedDescriptor : decodeFor Config.hardware ⟨6, 0xFFFFFFFF, 3, 8⟩ = .command (.enc (-1) 3 8) := by
  decide

theorem witness_DescriptorBytesAreLittleEndian : (3 : Nat) < 4 := by decide

theorem witness_DecodeOperands :
    (8 : Word).toNat ≤ 268435455 ∧ signedAt 0x7FFFFFFF = 2147483647 ∧ signedAt 0x80000000 = -2147483648 := by decide

/-- UNPACK, with one byte taken already. -/
theorem witness_Unpack :
    (receivingState (.unpack 2) [0xB0] [0x50, 0x99]).accepting 2 ∧
    (receivingState (.unpack 2) [0xB0] [0x50, 0x99]).hasRoomFor 8 0 := by decide

theorem witness_Expand_bad :
    (issued (.expand [3, 4])).accepting 2 ∧ (issued (.expand [3, 4])).hasRoomFor 8 0 ∧
    3 < byteAt ((issued (.expand [3, 4])).payload 2) 1 := by decide
theorem witness_Expand_ok :
    (issued (.expand [3, 0])).accepting 2 ∧ (issued (.expand [3, 0])).hasRoomFor 8 0 ∧
    ∀ k, k < 2 → byteAt ((issued (.expand [3, 0])).payload 2) k ≤ 3 := by decide

theorem witness_Dec_bad_width : (issued (.dec 0 [])).accepting 0 ∧ (0 : Int) ≤ 0 ∧ (issued (.dec 0 [])).hasRoomFor 0 0 := by
  decide
theorem witness_Dec_ok :
    (issued (.dec 1 [0xC0, 0xA0])).accepting 2 ∧ 1 ≤ 1 ∧
    (issued (.dec 1 [0xC0, 0xA0])).hasRoomFor (4 * (1 * (8 * (2 / 2) / 1))) 2 := by decide

theorem witness_Quant_bad :
    (issued (.quant [1, 2, 3])).accepting 3 ∧ (issued (.quant [1, 2, 3])).hasRoomFor (3 / 4) 0 ∧ 3 % 4 ≠ 0 := by decide
theorem witness_Quant_ok :
    (issued (.quant [1, 2, 3, 4])).accepting 4 ∧ (issued (.quant [1, 2, 3, 4])).hasRoomFor (4 / 4) 0 ∧ 4 % 4 = 0 := by
  decide

theorem witness_Pack_bad_width :
    (issued (.pack 0 0 [])).accepting 0 ∧ (0 : Int) ≤ 0 ∧ (issued (.pack 0 0 [])).hasRoomFor 0 0 := by decide
theorem witness_Pack_bad_length :
    (issued (.pack 2 1 [7])).accepting 1 ∧ (1 : Nat) ≠ 2 * 1 ∧ (issued (.pack 2 1 [7])).hasRoomFor 0 0 := by decide
theorem witness_Pack_bad_index :
    (issued (.pack 2 1 [1, 4])).accepting 2 ∧ 2 = 2 * 1 ∧ 3 < byteAt ((issued (.pack 2 1 [1, 4])).payload 2) 1 ∧
    (issued (.pack 2 1 [1, 4])).hasRoomFor 0 0 := by decide
theorem witness_Pack_ok :
    (issued (.pack 3 1 [3, 1, 2])).accepting 3 ∧ 3 = 3 * 1 ∧
    (∀ k, k < 3 → byteAt ((issued (.pack 3 1 [3, 1, 2])).payload 3) k ≤ 3) ∧
    (issued (.pack 3 1 [3, 1, 2])).hasRoomFor (1 * ((3 + 1) / 2)) 0 := by decide

theorem witness_Enc_bad_width :
    (issued (.enc (-1) 0 [])).accepting 0 ∧ (-1 : Int) ≤ 0 ∧ (issued (.enc (-1) 0 [])).hasRoomFor 0 0 := by decide
theorem witness_Enc_bad_length :
    (issued (.enc 1 0 [1, 2, 3, 4])).accepting 4 ∧ 4 ≠ 4 * 1 * 0 ∧ (issued (.enc 1 0 [1, 2, 3, 4])).hasRoomFor 0 0 := by
  decide
theorem witness_Enc_ok :
    (issued (.enc 1 1 [255, 255, 255, 255])).accepting 4 ∧ 4 = 4 * 1 * 1 ∧
    (issued (.enc 1 1 [255, 255, 255, 255])).hasRoomFor (1 * ((1 + 1) / 2)) 1 := by decide

/-- The frame: a stage command on a core that is not sending. -/
theorem witness_CommandLeavesTheRest :
    exec (.unpack 4) (receivingState (.unpack 4) [1] [2]) = .next (receivingState (.unpack 4) [1, 2] []) ∧
    (receivingState (.unpack 4) [1] [2]).isSending = false := ⟨rfl, rfl⟩

theorem witness_AnswerDelivered_sending :
    exec (.unpack 2) sendingState = .next sendingState ∧ sendingState.isSending = true := ⟨rfl, rfl⟩
theorem witness_AnswerDelivered_waiting :
    exec (.unpack 4) (receivingState (.unpack 4) [1] [2]) = .next (receivingState (.unpack 4) [1, 2] []) ∧
    (receivingState (.unpack 4) [1] [2]).received.length + (receivingState (.unpack 4) [1] [2]).din.length <
      (Instr.unpack 4).len := ⟨rfl, by decide⟩
theorem witness_AnswerDelivered_complete :
    (issued (.unpack [1])).isSending = false ∧ (issued (.unpack [1])).accepting 1 ∧
    (Instr.unpack 1).len ≤ (issued (.unpack [1])).received.length + (issued (.unpack [1])).din.length := by decide

theorem witness_ResponseFollows :
    exec (.unpack 1) (issued (.unpack [1])) =
      .next { issued (.unpack [1]) with serial := 1, din := [], rsp := ⟨[0, 0, 0, 0], none⟩ } ∧
    ([0, 0, 0, 0] : List Word) ≠ (issued (.unpack [1])).rsp.items := ⟨rfl, by decide⟩

theorem reset_hasRoomFor (core : CoreState) (cmd : List Word) (din : List PlacedByte) (n m : Nat) :
    ({ State.reset with core := core, cmd := cmd, din := din } : State).hasRoomFor n m := by
  simp [State.hasRoomFor, State.reset, Channel.hasRoom, Channel.accepts]

theorem witness_AnswerDependsOnCommandAlone :
    (issued (.unpack [1, 2])).accepting (Instr.unpack 2).len ∧
    (receivingState (.unpack 2) [1] [2]).accepting (Instr.unpack 2).len ∧
    (issued (.unpack [1, 2])).payload (Instr.unpack 2).len =
      (receivingState (.unpack 2) [1] [2]).payload (Instr.unpack 2).len ∧
    (∀ n m, (issued (.unpack [1, 2])).hasRoomFor n m) ∧
    (∀ n m, (receivingState (.unpack 2) [1] [2]).hasRoomFor n m) :=
  ⟨by decide, by decide, by decide, fun n m => reset_hasRoomFor _ _ _ n m, fun n m => reset_hasRoomFor _ _ _ n m⟩

/-- One descriptor for each cause, in the order of R188, each also meeting later causes where it can. -/
theorem witness_Status_illegal : isIllegal ⟨3, 0, 5, 0⟩ ∧ (0 : Word).toNat ≤ 268435455 ∧ ([] : List Byte).length = (0 : Word).toNat := by
  unfold isIllegal; decide
theorem witness_Status_refused : 268435455 < (⟨1, 0, 0, 0x10000000⟩ : Descriptor).w3.toNat := by decide
theorem witness_Status_badWidth : ¬ isIllegal ⟨5, 0, 0, 0⟩ ∧ hasBadWidth ⟨5, 0, 0, 0⟩ := by unfold isIllegal hasBadWidth; decide
theorem witness_Status_badLength :
    ¬ isIllegal ⟨5, 2, 1, 1⟩ ∧ ¬ hasBadWidth ⟨5, 2, 1, 1⟩ ∧ hasBadLength ⟨5, 2, 1, 1⟩ ∧ hasBadIndex ⟨5, 2, 1, 1⟩ [7] := by
  unfold isIllegal hasBadWidth hasBadLength hasBadIndex; decide
theorem witness_Status_badIndex :
    ¬ isIllegal ⟨2, 0, 0, 2⟩ ∧ ¬ hasBadWidth ⟨2, 0, 0, 2⟩ ∧ ¬ hasBadLength ⟨2, 0, 0, 2⟩ ∧ hasBadIndex ⟨2, 0, 0, 2⟩ [3, 4] := by
  unfold isIllegal hasBadWidth hasBadLength hasBadIndex; decide
theorem witness_Status_ok :
    ¬ isIllegal ⟨2, 0, 0, 2⟩ ∧ ¬ hasBadWidth ⟨2, 0, 0, 2⟩ ∧ ¬ hasBadLength ⟨2, 0, 0, 2⟩ ∧ ¬ hasBadIndex ⟨2, 0, 0, 2⟩ [3, 3] := by
  unfold isIllegal hasBadWidth hasBadLength hasBadIndex; decide

theorem witness_FaultOutcome :
    (issued (.dec 0 [1])).rst = false ∧ (issued (.dec 0 [1])).core = .idle ∧
    (issued (.dec 0 [1])).cmd = (encode (.dec 0 1)).words ++ [] ∧ (issued (.dec 0 [1])).payloadReady (encode (.dec 0 1)).len ∧
    answer (encode (.dec 0 1)) ((issued (.dec 0 [1])).nextBytes (encode (.dec 0 1)).len) = some ⟨[], [], [1, 0, 0, 0]⟩ ∧
    (⟨[], [], [1, 0, 0, 0]⟩ : Reply).status ≠ 0 ∧ (issued (.dec 0 [1])).rsp.hasRoom 4 = true := by decide

theorem witness_IllegalDescriptor :
    (issued (.raw 0xFF 0 0 2 [1, 2])).rst = false ∧ (issued (.raw 0xFF 0 0 2 [1, 2])).core = .idle ∧
    (issued (.raw 0xFF 0 0 2 [1, 2])).cmd = (⟨0xFF, 0, 0, 2⟩ : Descriptor).words ++ [] ∧
    (issued (.raw 0xFF 0 0 2 [1, 2])).payloadReady (⟨0xFF, 0, 0, 2⟩ : Descriptor).len ∧
    (2 : Word).toNat ≤ 268435455 ∧ isIllegal ⟨0xFF, 0, 0, 2⟩ ∧
    (issued (.raw 0xFF 0 0 2 [1, 2])).rsp.hasRoom 4 = true := by unfold isIllegal; decide

theorem witness_ReservedStatusCodes : answer (encode (.dec 0 0)) [] = some ⟨[], [], [1, 0, 0, 0]⟩ := by decide

theorem witness_ResponseCounts_ok :
    Config.hardware.legal = true ∧ (Instr.expand 1).wellFormedFor Config.hardware = true ∧
    [(3 : Byte)].length = (Instr.expand 1).len ∧ (replyFor Config.hardware (.expand 1) [3]).status = 0 := by decide
theorem witness_ResponseCounts_fault :
    Config.hardware.legal = true ∧ (Instr.expand 1).wellFormedFor Config.hardware = true ∧
    [(4 : Byte)].length = (Instr.expand 1).len ∧ (replyFor Config.hardware (.expand 1) [4]).status ≠ 0 := by decide
theorem witness_ImageSize_dec :
    (Instr.dec (3 : Nat) 2).wellFormedFor Config.hardware = true ∧
    (replyFor Config.hardware (.dec (3 : Nat) 2) [0xB0, 0x50]).status = 0 := by decide

theorem witness_Events_dec : (replyFor Config.hardware (.dec 8 0) []).status = 0 := by decide
theorem witness_Events_enc : (replyFor Config.hardware (.enc 1 0 0) []).status = 0 := by decide
theorem witness_Events_fault : (replyFor Config.hardware (.enc 0 0 0) []).status ≠ 0 := by decide

theorem witness_WritesAreBounded :
    ([] : List Byte).length = (encode (.dec 8 0)).len ∧
    answer (encode (.dec 8 0)) [] = some ⟨[], [0x0001, 0x6402], [0, 8, 0, 0]⟩ := by decide

theorem witness_PlanePair : ([0, 1, 2, 3, 3, 2, 1, 0] : List Byte).length = 8 ∧
    ∀ i, i ∈ ([0, 1, 2, 3, 3, 2, 1, 0] : List Byte) → i.toNat ≤ 3 := by decide
theorem witness_OddTrailingByte : ([0xB0, 0x50] : List Byte).length % 2 = 0 := by decide
theorem witness_GreyByte : (3 : Byte).toNat ≤ 3 := by decide
theorem witness_DecCounts : 1 ≤ 3 ∧ ([0xB0, 0x50] : List Byte).length ≤ 268435455 := by decide
theorem witness_DecPrefix :
    1 ≤ 5 ∧ 1 ≤ 3 ∧ (decReply Config.hardware (5 : Nat) 2 [0xB0, 0x50]).out.length ≤
      (decReply Config.hardware (3 : Nat) 2 [0xB0, 0x50]).out.length := by decide
theorem witness_EncIsQuantThenPack : 1 ≤ 1 ∧ ([255, 255, 255, 255] : List Byte).length = 4 * 1 * 1 := by decide
theorem witness_PackedOutputs_pack :
    ([3, 1, 2] : List Byte).length = 3 ∧ (packReply (3 : Nat) 1 3 [3, 1, 2]).status = 0 ∧ 3 % 2 = 1 ∧
    1 < (packReply (3 : Nat) 1 3 [3, 1, 2]).out.length ∧ 1 % ((3 + 1) / 2) = (3 + 1) / 2 - 1 := by decide
theorem witness_PackedOutputs_enc :
    (encReply Config.hardware (1 : Nat) 1 4 [255, 255, 255, 255]).status = 0 := by decide
theorem witness_RoundTripPlaneZero :
    1 ≤ 8 ∧ ([0xB0, 0x77] : List Byte).length / 2 = ([0xB0, 0x50] : List Byte).length / 2 ∧
    ∀ k, k < 1 → byteAt [0xB0, 0x77] (2 * k) = byteAt [0xB0, 0x50] (2 * k) := by decide
theorem witness_RoundTripClosedForm : 1 ≤ 8 ∧ 8 % 2 = 0 ∧ 3 < 8 * roundTripHeight [0xB0, 0x50] 8 / 2 := by decide
theorem witness_RoundTripLonger_even :
    1 ≤ 1 ∧ ([0xB0, 0x50] : List Byte).length = 2 * 1 ∧ 1 ≤ 8 ∧ 8 * 1 % 8 = 0 ∧ 8 % 2 = 0 := by decide
theorem witness_RoundTripLonger_odd :
    1 ≤ 1 ∧ ([0xB0, 0x50] : List Byte).length = 2 * 1 ∧ 1 ≤ 1 ∧ 8 * 1 % 1 = 0 ∧ 1 % 2 = 1 := by decide

theorem witness_RoundTripIsTwoCommands :
    State.reset.core = .idle ∧ State.reset.rst = false ∧ State.reset.cmd = [] ∧ State.reset.din = [] ∧
    (∀ n m, State.reset.hasRoomFor n m) ∧ State.reset.rsp.hasRoom 8 = true ∧ 1 ≤ 8 ∧ 8 ≤ 2147483647 ∧
    ([0xB0, 0x50] : List Byte).length ≤ 268435455 ∧ (roundTripImage [0xB0, 0x50] 8).length ≤ 268435455 :=
  ⟨rfl, rfl, rfl, rfl, fun n m => reset_hasRoomFor _ _ _ n m, rfl, by decide, by decide, by decide, by decide⟩

/-- A state in which the step is taken with an answer on its way, for the invariant. -/
theorem witness_EveryStepKeepsInvariant : sendingState.Inv ∧ step sendingState = .next sendingState :=
  ⟨sendingState_inv, rfl⟩

theorem witness_HostActsKeepInvariant : sendingState.Inv := sendingState_inv

theorem witness_QueueingAhead :
    (issued (.unpack [1, 2])).rst = false ∧ (issued (.unpack [1, 2])).core = .idle ∧
    (issued (.unpack [1, 2])).cmd = (encode (.unpack 2)).words ++ [] ∧
    (issued (.unpack [1, 2])).payloadReady (encode (.unpack 2)).len ∧
    step (issued (.unpack [1, 2])) =
      .next { State.reset with serial := 1, dout := ⟨[0, 0, 0, 0, 0, 0, 2, 1], none⟩, rsp := ⟨[0, 0, 0, 8], none⟩ } :=
  ⟨by decide, by decide, by decide, by decide, rfl⟩

/-- The output channels hold one element each. -/
def narrow : State :=
  { issued (.dec 8 []) with dout := ⟨[], some 1⟩, evt := ⟨[], some 1⟩, rsp := ⟨[], some 1⟩ }

theorem witness_DrainingHost :
    narrow.Inv ∧ narrow.rst = false ∧ narrow.core = .idle ∧ narrow.cmd = (encode (.dec 8 0)).words ∧
    narrow.payloadReady (encode (.dec 8 0)).len ∧
    answer (encode (.dec 8 0)) (narrow.nextBytes (encode (.dec 8 0)).len) = some ⟨[], [0x0001, 0x6402], [0, 8, 0, 0]⟩ ∧
    narrow.dout.items = [] ∧ narrow.evt.items = [] ∧ narrow.rsp.items = [] ∧
    narrow.dout.usable = true ∧ narrow.evt.usable = true ∧ narrow.rsp.usable = true :=
  ⟨⟨trivial, by decide, by decide, by decide⟩, by decide⟩

end Sys2Proof.Tests
end

section
/-! The scope of the model (00_scope): what LEN above LMAX does to a step, on what an answer depends, and the plane bit. -/

namespace Sys2Proof.Machine

/-! ### Taking a descriptor with LEN above LMAX (R10, R73 (d)) -/

theorem requireUnused_ne_refused (unusedIsZero : Bool) (i : Instr) : requireUnused unusedIsZero i ≠ .refused := by
  cases unusedIsZero <;> simp [requireUnused]

/-- R73 (d): LEN alone decides whether a descriptor is refused. -/
theorem decodeFor_eq_refused_iff {p : Config.Params} {d : Descriptor} :
    decodeFor p d = .refused ↔ p.lmax < d.len := by
  refine ⟨fun h => ?_, fun h => by simp [decodeFor, h]⟩
  by_contra hlen
  simp only [decodeFor, if_neg hlen] at h
  split at h
  · cases h
  · split at h <;> simp [requireUnused_ne_refused] at h

theorem decode_eq_refused_iff {d : Descriptor} : decode d = .refused ↔ 268435455 < d.w3.toNat :=
  decodeFor_eq_refused_iff

/-- An idle core takes the descriptor at the head of CMD (R24, R60). -/
theorem fetch_of_idle {s : State} {d : Descriptor} {rest : List Word} (hc : s.core = .idle)
    (hw : s.cmd = d.words ++ rest) : fetch s = some (d, (s.withCmd rest).withCore (.receiving d [])) := by
  simp [fetch, hc, hw, Descriptor.words]

theorem step_of_fetch_refused {s t : State} {d : Descriptor} (hr : s.rst = false) (hf : fetch s = some (d, t))
    (hd : decode d = .refused) : step s = .refused .lenAboveLmax := by
  simp [step, hr, hf, hd]

/-- Settles O4: the idle core takes `d`, which decodes to refusal whatever its other words. -/
theorem overlongPayloadIsRefused : Obligations.OverlongPayloadIsRefused := by
  intro s d rest hr hc hw hlen
  exact step_of_fetch_refused hr (fetch_of_idle hc hw) (decode_eq_refused_iff.mpr hlen)

/-! ### The answer (R19, R20) -/

/-- On a core with the payload and room without bound, a command completes with the answer of `replyFor`. -/
theorem exec_finishes_with_replyFor {i : Instr} {s : State} (ha : s.accepting i.len)
    (hroom : ∀ n m, s.hasRoomFor n m) :
    exec i s = .next (s.finish i.len (replyFor Config.hardware i (s.payload i.len))) :=
  exec_completes i s _ ha rfl (replyFor_words_length _ _ _) (hroom _ _)

/-- Settles O27: the one reply is `replyFor` of the command and the payload the two states share. -/
theorem answerDependsOnCommandAndPayloadAlone : Obligations.AnswerDependsOnCommandAndPayloadAlone := by
  intro i s₁ s₂ ha₁ ha₂ hpayload hroom₁ hroom₂
  refine ⟨replyFor Config.hardware i (s₁.payload i.len), exec_finishes_with_replyFor ha₁ hroom₁, ?_⟩
  rw [hpayload]
  exact exec_finishes_with_replyFor ha₂ hroom₂

/-! ### The plane bit (R16, R131) -/

theorem q1_eq_mod (c : Byte) : q1 c = c.toNat / 85 % 2 := Nat.and_one_is_mod _

/-- Settles O42: a byte holds 85 at most three times, and the quotient is odd from 85 to 169 and at 255 = 3 * 85. -/
theorem planeBitFollowsTheThresholds : Obligations.PlaneBitFollowsTheThresholds := by
  intro c
  have hc : c.toNat < 256 := c.isLt
  rw [q1_eq_mod]
  split
  case isTrue h => omega
  case isFalse h => omega

end Sys2Proof.Machine
end

section
/-! The state and its step (10_state): the core after reset, what a step runs, a whole command in one step, and the
invariant that every step keeps. -/

namespace Sys2Proof.Machine

/-! ### Reset (R32, R211) -/

/-- Settles O1: these are the values of R32's table. -/
theorem resetLeavesIdleCoreAndEmptyChannels : Obligations.ResetLeavesIdleCoreAndEmptyChannels :=
  ⟨rfl, rfl, rfl, rfl, rfl, rfl, rfl⟩

/-- Settles O52: an idle core holds nothing, and an empty channel without a bound is not too full. -/
theorem resetMeetsInvariant : Obligations.ResetMeetsInvariant :=
  ⟨trivial, rfl, rfl, rfl⟩

/-! ### What a step runs (R24, R29) -/

theorem step_of_fetch_command {s t : State} {d : Descriptor} {i : Instr} (hr : s.rst = false)
    (hf : fetch s = some (d, t)) (hd : decode d = .command i) : step s = exec i t := by
  simp [step, hr, hf, hd]

/-- A busy core keeps the descriptor it has latched (R29). -/
theorem fetch_of_busy {s : State} {d : Descriptor} {payload : List Byte}
    (hc : s.core = .receiving d payload ∨ (∃ o, s.core = .sending d payload o) ∨ ∃ bytes, s.core = .strayed d bytes) :
    fetch s = some (d, s) := by
  obtain hc | ⟨o, hc⟩ | ⟨bytes, hc⟩ := hc <;> simp [fetch, hc]

/-- Settles O2: the idle core takes the descriptor, and the step is `exec` of what it decodes to. -/
theorem stepRunsDecodedCommand : Obligations.StepRunsDecodedCommand := by
  intro s d rest i hr hc hw hd
  exact step_of_fetch_command hr (fetch_of_idle hc hw) hd

/-- Settles O3: the busy core fetches the descriptor it holds and leaves its state as it is. -/
theorem busyStepContinuesLatchedCommand : Obligations.BusyStepContinuesLatchedCommand := by
  intro s d payload i hr hc hd
  exact step_of_fetch_command hr (fetch_of_busy hc) hd

/-! ### A command in one step (R24, R41, R42) -/

/-- Only a descriptor that the decoder refuses has no answer. -/
theorem decode_ne_refused_of_answer {d : Descriptor} {P : List Byte} {r : Reply} (h : answer d P = some r) :
    decode d ≠ .refused := by
  intro hd
  simp [answer, hd] at h

/-- A step completes the descriptor it fetches when its payload is there and its answer has room. -/
theorem step_completes_of_fetch {s t : State} {d : Descriptor} {r : Reply} (hrst : s.rst = false)
    (hf : fetch s = some (d, t)) (hacc : t.accepting d.len) (ha : answer d (t.payload d.len) = some r)
    (hroom : t.hasRoomFor r.out.length r.events.length) : step s = .next (t.finish d.len r) := by
  obtain ⟨respond, hrespond, hstep⟩ := step_of_fetch hrst hf (decode_ne_refused_of_answer ha)
  obtain rfl : respond (t.payload d.len) = r := Option.some.inj ((hrespond _).symm.trans ha)
  rw [hstep, runCommand_completes _ _ _ _ hacc hroom (answer_words_length ha)]

/-- Settles O5: the core that has just latched `d` has the payload and the room, so the step ends in `State.finish`. -/
theorem commandIsOneStepFromIdleToIdle : Obligations.CommandIsOneStepFromIdleToIdle := by
  intro s d rest r hrst hc hw hready ha hroom
  rw [step_completes_of_fetch hrst (fetch_of_idle hc hw) ⟨rfl, Nat.zero_le _, hready⟩ ha hroom]
  simp [State.finish, State.received, hc]

/-! ### The rest of an answer (R30, R54 (c)) -/

/-- `left` is what remains of `whole` once its first `sent` elements have been delivered. -/
def IsRest {α : Type} (whole left : List α) (sent : Nat) : Prop :=
  sent ≤ whole.length ∧ left = whole.drop sent

theorem isRest_self {α : Type} (whole : List α) : IsRest whole whole 0 := ⟨Nat.zero_le _, rfl⟩

theorem IsRest.drop {α : Type} {whole left : List α} {sent n : Nat} (h : IsRest whole left sent)
    (hn : n ≤ left.length) : IsRest whole (left.drop n) (sent + n) := by
  obtain ⟨hle, rfl⟩ := h
  rw [List.length_drop] at hn
  exact ⟨by omega, List.drop_drop⟩

/-- What is on its way is the undelivered rest of the answer `r`. -/
def Outgoing.RestOf (o : Outgoing) (r : Reply) : Prop :=
  IsRest r.out o.out o.outSent ∧ IsRest r.events o.events o.eventsSent ∧ IsRest r.words o.words o.wordsSent

/-- No response word has gone before the output was delivered (R54 (c)). -/
def Outgoing.WordsLast (o : Outgoing) : Prop := o.wordsSent = 0 ∨ o.outputDone = true

theorem start_restOf (r : Reply) : r.start.RestOf r := ⟨isRest_self _, isRest_self _, isRest_self _⟩

theorem start_wordsLast (r : Reply) : r.start.WordsLast := .inl rfl

/-- The invariant of a sending core, in the terms of this section. -/
theorem inv_sending_iff {serial : Nat} {d : Descriptor} {payload : List Byte} {o : Outgoing} :
    (CoreState.sending d payload o).Inv serial ↔
      payload.length = d.len ∧ o.done = false ∧ o.WordsLast ∧ ∃ r, answer d payload = some r ∧ o.RestOf r := by
  simp only [CoreState.Inv, Outgoing.WordsLast, Outgoing.RestOf, IsRest, and_assoc]

theorem Delivers.restOf {a b : State × Outgoing} {r : Reply} (h : Delivers a b) (hr : a.2.RestOf r) :
    b.2.RestOf r := by
  obtain ⟨hout, hevents, hwords⟩ := hr
  obtain ⟨n, hn, -, ho, hos⟩ := h.out
  obtain ⟨m, hm, -, he, hes⟩ := h.events
  refine ⟨?_, ?_, ?_⟩
  · rw [ho, hos]; exact hout.drop hn
  · rw [he, hes]; exact hevents.drop hm
  · rw [h.words, h.wordsSent]; exact hwords

theorem Delivers.outputDone {a b : State × Outgoing} (h : Delivers a b) (hd : a.2.outputDone = true) :
    b.2.outputDone = true := by
  obtain ⟨n, -, -, ho, -⟩ := h.out
  obtain ⟨m, -, -, he, -⟩ := h.events
  simp only [Outgoing.outputDone, Bool.and_eq_true, List.isEmpty_iff] at hd ⊢
  simp [ho, he, hd]

theorem Delivers.wordsLast {a b : State × Outgoing} (h : Delivers a b) (hw : a.2.WordsLast) : b.2.WordsLast :=
  hw.imp h.wordsSent.trans h.outputDone

/-! ### The invariant (R24, R30, R54, R217) -/

/-- No output channel holds more than it can (R217). -/
def State.ChannelsWithin (s : State) : Prop :=
  s.dout.within = true ∧ s.evt.within = true ∧ s.rsp.within = true

theorem State.inv_iff {s : State} : s.Inv ↔ s.core.Inv s.serial ∧ s.ChannelsWithin := Iff.rfl

theorem Delivers.channelsWithin {a b : State × Outgoing} (h : Delivers a b) (ha : a.1.ChannelsWithin) :
    b.1.ChannelsWithin := by
  obtain ⟨hdout, hevt, hrsp⟩ := ha
  exact ⟨h.dout_within hdout, h.evt_within hevt, by rw [h.rsp]; exact hrsp⟩

/-- Delivering the rest of an answer leaves an idle core, or one that sends what is still left of that answer. -/
theorem deliver_inv {s : State} {d : Descriptor} {payload : List Byte} {o : Outgoing} {r : Reply}
    (hs : s.ChannelsWithin) (hlen : payload.length = d.len) (hw : o.WordsLast) (ha : answer d payload = some r)
    (hr : o.RestOf r) : (s.deliver d payload o).Inv := by
  obtain ⟨s₁, o₁, n, -, hD, hn, hwait, -, hroom, heq⟩ := deliver_cases s d payload o
  obtain ⟨hdout, hevt, hrsp⟩ := hD.channelsWithin hs
  obtain ⟨hout, hevents, hwords⟩ := hD.restOf hr
  have hch : (s₁.withRsp (s₁.rsp.put (o₁.words.take n))).ChannelsWithin :=
    ⟨hdout, hevt, Channel.within_put_take _ hrsp hroom⟩
  rw [heq]
  split
  case isTrue => exact ⟨trivial, hch⟩
  case isFalse hleft =>
    refine ⟨inv_sending_iff.mpr ⟨hlen, by simpa [Outgoing.done] using hleft, ?wordsLast, r, ha, ?restOf⟩, hch⟩
    case restOf => exact ⟨hout, hevents, hwords.drop hn⟩
    case wordsLast =>
      obtain hsent | hdone := hD.wordsLast hw
      · cases hdone : o₁.outputDone
        case false => exact .inl (by rw [hwait hdone]; exact hsent)
        case true => exact .inr hdone
      · exact .inr hdone

/-- Taking payload leaves a core that is astray with a stray byte, one that lacks payload, or one that delivers the
answer to its complete payload. -/
theorem receive_inv {s : State} {d : Descriptor} {respond : List Byte → Reply} {payload : List Byte}
    (hs : s.ChannelsWithin) (hlen : payload.length ≤ d.len) (hd : decode d ≠ .refused)
    (ha : ∀ P, answer d P = some (respond P)) : (s.receive d d.len respond payload).Inv := by
  obtain ⟨hstray, heq⟩ | ⟨-, hshort, heq⟩ | ⟨-, hfull, heq⟩ := receive_cases s d d.len respond payload <;> rw [heq]
  · obtain ⟨b, hb, hserial⟩ : ∃ b, b ∈ s.din.take (d.len - payload.length) ∧ b.serial ≠ s.serial := by
      simpa [State.ownsBytes] using hstray
    exact ⟨⟨by simp; omega, hd, b, List.mem_append_right _ hb, hserial⟩, hs⟩
  · exact ⟨⟨by simpa using hshort, hd⟩, hs⟩
  · exact deliver_inv hs (by simp; omega) (start_wordsLast _) (ha _) (start_restOf _)

theorem abandon_inv {s : State} (hs : s.ChannelsWithin) (d : Descriptor) (payload : List PlacedByte) (k m n : Nat) :
    (s.abandon d payload k m n).Inv := by
  obtain ⟨hdout, hevt, hrsp⟩ := hs
  exact ⟨trivial, Channel.within_abandon _ hdout, Channel.within_abandon _ hevt, Channel.within_abandon _ hrsp⟩

theorem resetCore_inv {s : State} (hs : s.Inv) : s.resetCore.Inv := by
  obtain ⟨-, hch⟩ := State.inv_iff.mp hs
  unfold State.resetCore
  split
  · exact hs
  all_goals exact abandon_inv hch _ _ _ _ _

/-- Everything a step can be on a core that has fetched a descriptor: taking payload for it, or going on with its
answer. -/
theorem runCommand_fetched_cases {s s' t : State} {d : Descriptor} {len : Nat} {respond : List Byte → Reply}
    (hf : fetch s = some (d, s')) (h : runCommand d len respond s' = .next t) :
    (∃ payload, s.core = .receiving d payload ∧ t = s.receive d len respond payload) ∨
    (∃ payload o, s.core = .sending d payload o ∧ t = s.deliver d payload o) ∨
    (∃ rest, s.core = .idle ∧ s.cmd = d.words ++ rest ∧
      t = ((s.withCmd rest).withCore (.receiving d [])).receive d len respond []) := by
  obtain ⟨payload, hc, rfl⟩ | ⟨payload, o, hc, rfl⟩ | ⟨payload, hc, rfl⟩ | ⟨rest, hc, hw, rfl⟩ := fetch_cases hf
  · simp only [runCommand, hc] at h
    cases h; exact .inl ⟨payload, hc, rfl⟩
  · simp only [runCommand, hc] at h
    cases h; exact .inr (.inl ⟨payload, o, hc, rfl⟩)
  · simp [runCommand, hc] at h
  · cases h; exact .inr (.inr ⟨rest, hc, hw, rfl⟩)

/-- Settles O53: reset leaves an idle core, a wait changes nothing, and otherwise the step takes payload for its
descriptor or goes on delivering the rest of its answer. -/
theorem everyStepKeepsInvariant : Obligations.EveryStepKeepsInvariant := by
  intro s t hs h
  obtain ⟨hcore, hch⟩ := State.inv_iff.mp hs
  obtain ⟨-, rfl⟩ | ⟨-, -, rfl⟩ | ⟨-, d, s', respond, hf, hd, ha, hrun⟩ := step_cases h
  · exact resetCore_inv hs
  · exact hs
  · obtain ⟨payload, hc, rfl⟩ | ⟨payload, o, hc, rfl⟩ | ⟨rest, -, -, rfl⟩ := runCommand_fetched_cases hf hrun
    · obtain ⟨hlack, -⟩ : (CoreState.receiving d payload).Inv s.serial := hc ▸ hcore
      exact receive_inv hch hlack.le hd ha
    · obtain ⟨hlen, -, hw, r, hans, hr⟩ := inv_sending_iff.mp (hc ▸ hcore)
      exact deliver_inv hch hlen hw hans hr
    · exact receive_inv hch (Nat.zero_le _) hd ha

end Sys2Proof.Machine
end

section
/-! The channels and what moves on them (20_memory): a descriptor as bytes, the size of an answer, the frame of a
command, the order of delivery, and a host that drains the output channels. -/

namespace Sys2Proof

/-! ### The byte form of a descriptor (R43, R60) -/

/-- Byte `j` of a word, its bits `8j + 7` to `8j` (R43). -/
theorem wordBytes_getD_toNat (w : Word) {j : Nat} (hj : j < 4) :
    ((wordBytes w).getD j 0).toNat = w.toNat / 2 ^ (8 * j) % 256 := by
  interval_cases j <;> simp [wordBytes, Nat.shiftRight_eq_div_pow]

theorem wordOfBytes_wordBytes (w : Word) :
    wordOfBytes (BitVec.ofNat 8 w.toNat) (BitVec.ofNat 8 (w.toNat >>> 8)) (BitVec.ofNat 8 (w.toNat >>> 16))
      (BitVec.ofNat 8 (w.toNat >>> 24)) = w := by
  have hw : w.toNat < 2 ^ 32 := w.isLt
  apply BitVec.eq_of_toNat_eq
  simp only [wordOfBytes, BitVec.toNat_ofNat, Nat.shiftRight_eq_div_pow]
  omega

@[simp] theorem takeWord_wordBytes_append (w : Word) (rest : List Byte) :
    takeWord (wordBytes w ++ rest) = some (w, rest) := by
  simp only [wordBytes, List.cons_append, List.nil_append, takeWord, wordOfBytes_wordBytes]

theorem Descriptor.bytes_append (d : Descriptor) (rest : List Byte) :
    d.bytes ++ rest = wordBytes d.w0 ++ (wordBytes d.w1 ++ (wordBytes d.w2 ++ (wordBytes d.w3 ++ rest))) := by
  simp [Descriptor.bytes, Descriptor.words]

/-- Settles O15: each of the four words reads back from its four bytes. -/
theorem descriptorBytesReadBack : Obligations.DescriptorBytesReadBack := by
  intro d rest
  simp [d.bytes_append, takeDescriptor]

/-- Each word takes four places, so byte `j` of word `k` stands at place `4k + j`. -/
theorem flatMap_wordBytes_getD {ws : List Word} {k j : Nat} (hk : k < ws.length) (hj : j < 4) :
    (ws.flatMap wordBytes).getD (4 * k + j) 0 = (wordBytes (ws.getD k 0)).getD j 0 := by
  induction ws generalizing k with
  | nil => simp at hk
  | cons w ws ih =>
    have hlen : (wordBytes w).length = 4 := rfl
    rw [List.flatMap_cons]
    cases k with
    | zero => rw [Nat.mul_zero, Nat.zero_add, List.getD_append _ _ _ _ (by omega), List.getD_cons_zero]
    | succ k =>
      have hplace : 4 * (k + 1) + j - 4 = 4 * k + j := by omega
      rw [List.getD_append_right _ _ _ _ (by omega), hlen, hplace, List.getD_cons_succ, ih (by simpa using hk)]

/-- Settles O16: place `4k + j` holds byte `j` of word `k`. -/
theorem descriptorBytesAreLittleEndian : Obligations.DescriptorBytesAreLittleEndian := by
  intro d k j hk hj
  rw [Descriptor.bytes, flatMap_wordBytes_getD hk hj, wordBytes_getD_toNat _ hj]

end Sys2Proof

namespace Sys2Proof.Machine

/-! ### The size of an answer (R42, R74, R76, R222) -/

/-- `r` is an answer to a payload of `len` bytes: a fault outcome, or an OK response whose `OLEN` is made from the number
of its output bytes, at most sixteen for each payload byte, with at most two events. -/
def Reply.Sized (len : Nat) (r : Reply) : Prop :=
  (∃ st, st ≠ Status.ok ∧ r = faultReply st) ∨
  ∃ ow oh out events, r = okReply ow oh out.length out events ∧ out.length ≤ 16 * len ∧ events.length ≤ 2

theorem faultReply_sized (len : Nat) {st : Status} (h : st ≠ .ok) : (faultReply st).Sized len := .inl ⟨st, h, rfl⟩

theorem okReply_sized {len ow oh olen : Nat} {out : List Byte} {events : List EventRecord} (hout : out.length = olen)
    (hle : olen ≤ 16 * len) (hev : events.length ≤ 2) : (okReply ow oh olen out events).Sized len :=
  .inr ⟨ow, oh, out, events, by rw [hout], by omega, hev⟩

/-- A packed row takes no more bytes than it has elements (R136). -/
theorem mul_rowBytes_le (w h : Nat) : h * rowBytes w ≤ w * h := by
  rw [Nat.mul_comm w h]
  exact Nat.mul_le_mul_left h (by unfold rowBytes; omega)

theorem unpackReply_sized (P : List Byte) : (unpackReply P.length P).Sized P.length :=
  okReply_sized (unpack_length P) (by omega) (by simp)

theorem expandReply_sized (P : List Byte) : (expandReply P.length P).Sized P.length := by
  unfold expandReply
  split
  · exact faultReply_sized _ nofun
  · exact okReply_sized (expandAll_length P) (by omega) (by simp)

theorem decReply_sized (p : Config.Params) (width : Int) (P : List Byte) :
    (decReply p width P.length P).Sized P.length := by
  have himage : width.toNat * rows (flatCount P.length) width.toNat ≤ 8 * (P.length / 2) :=
    Nat.mul_div_le (8 * (P.length / 2)) width.toNat
  unfold decReply
  split
  · exact faultReply_sized _ nofun
  · refine okReply_sized ?_ (by omega) (by simp)
    rw [expandAll_length, List.length_take, unpack_length, Nat.min_eq_left himage]

theorem quantReply_sized (P : List Byte) : (quantReply P.length P).Sized P.length := by
  unfold quantReply
  split
  · exact faultReply_sized _ nofun
  · exact okReply_sized (by rw [List.length_map, readPixels_length]) (by omega) (by simp)

theorem packReply_sized (width : Int) (height : Nat) (P : List Byte) :
    (packReply width height P.length P).Sized P.length := by
  have hrows := mul_rowBytes_le width.toNat height
  unfold packReply
  split
  · exact faultReply_sized _ nofun
  split
  · exact faultReply_sized _ nofun
  next hshape =>
    have hlen : P.length = 1 * width.toNat * height := wrongShape_eq_false.mp (by simpa using hshape)
    rw [Nat.one_mul] at hlen
    split
    · exact faultReply_sized _ nofun
    · exact okReply_sized (packRows_length _ _ _ _ _ hlen.ge) (by omega) (by simp)

theorem encReply_sized (p : Config.Params) (width : Int) (height : Nat) (P : List Byte) :
    (encReply p width height P.length P).Sized P.length := by
  have hrows := mul_rowBytes_le width.toNat height
  unfold encReply
  split
  · exact faultReply_sized _ nofun
  split
  · exact faultReply_sized _ nofun
  next hshape =>
    have hlen : P.length = 4 * width.toNat * height := wrongShape_eq_false.mp (by simpa using hshape)
    rw [Nat.mul_assoc] at hlen
    exact okReply_sized (packRows_length _ _ _ _ _ (by rw [readPixels_length]; omega)) (by omega) (by simp)

theorem replyFor_sized (p : Config.Params) (i : Instr) {P : List Byte} (hP : P.length = i.len) :
    (replyFor p i P).Sized i.len := by
  cases i <;> obtain rfl := hP
  case unpack => exact unpackReply_sized P
  case expand => exact expandReply_sized P
  case dec width => exact decReply_sized p width P
  case quant => exact quantReply_sized P
  case pack width height => exact packReply_sized width height P
  case enc width height => exact encReply_sized p width height P

/-- A whole answer is at most `16 * LEN + 6` elements: output bytes, two events and four response words (R222). -/
theorem answer_size_le {d : Descriptor} {P : List Byte} {r : Reply} (hP : P.length = d.len)
    (h : answer d P = some r) : r.out.length + r.events.length + r.words.length ≤ 16 * d.len + 6 := by
  have hsized : r.Sized d.len := by
    unfold answer at h
    split at h
    next i hd =>
      cases h
      rw [← decode_len hd] at hP ⊢
      exact replyFor_sized _ i hP
    next => cases h; exact faultReply_sized _ nofun
    next => cases h
  obtain ⟨st, -, rfl⟩ | ⟨ow, oh, out, events, rfl, hout, hevents⟩ := hsized
  · simp
  · simp; omega

/-- R0 is the status alone (R74). -/
theorem responseWords_getD_zero_toNat (st : Status) (ow oh olen : Nat) :
    ((responseWords st ow oh olen).getD 0 0).toNat = st.code := by
  cases st <;> rfl

theorem status_of_responseWords {r : Reply} {st : Status} {ow oh olen : Nat}
    (h : r.words = responseWords st ow oh olen) : r.status = st.code := by
  rw [Reply.status, h, responseWords_getD_zero_toNat]
  cases st <;> rfl

/-- With legal parameters, sixteen output bytes for each payload byte are fewer than `OLEN` can count (R9, R112). -/
theorem sixteen_mul_len_lt {p : Config.Params} {i : Instr} (hp : p.legal = true) (hi : i.wellFormedFor p = true) :
    16 * i.len < 2 ^ 32 := by
  have hlmax : p.lmax ≤ 2 ^ 28 - 1 := by simp_all [Config.Params.legal]
  have hlen : i.len ≤ p.lmax := by cases i <;> simp_all [Instr.wellFormedFor, lenInRange, Instr.len]
  omega

/-- Settles O32: an OK response counts its output, which is too short to overflow `OLEN`, and a fault's is all zero. -/
theorem responseCountsTheOutputBytes : Obligations.ResponseCountsTheOutputBytes := by
  intro p i P hp hi hP
  have hbound := sixteen_mul_len_lt hp hi
  refine ⟨replyFor_words_length p i P, ?_⟩
  obtain ⟨st, -, heq⟩ | ⟨ow, oh, out, events, heq, hout, -⟩ := replyFor_sized p i hP <;> rw [heq]
  · exact ⟨rfl, by rw [status_of_responseWords (faultReply_words st)]; exact responseWords_getD_zero_toNat st 0 0 0,
      fun _ => ⟨rfl, rfl, rfl⟩⟩
  · refine ⟨Nat.mod_eq_of_lt (by omega), rfl, fun hne => absurd ?_ hne⟩
    exact status_of_responseWords (okReply_words ow oh _ out events)

/-! ### What a command's step can be (R24, R40, R41) -/

theorem isSending_iff {s : State} : s.isSending = true ↔ ∃ d payload o, s.core = .sending d payload o := by
  cases hc : s.core <;> simp [State.isSending, hc]

/-- Only a core with an answer on its way has something pending. -/
theorem pending_of_not_sending {s : State} (h : s.isSending = false) :
    s.pendingOut = [] ∧ s.pendingEvents = [] ∧ s.pendingWords = [] := by
  cases hc : s.core <;> simp_all [State.isSending, State.pendingOut, State.pendingEvents, State.pendingWords]

theorem pending_of_sending {s : State} {d : Descriptor} {payload : List Byte} {o : Outgoing}
    (hc : s.core = .sending d payload o) :
    s.pendingOut = o.out ∧ s.pendingEvents = o.events ∧ s.pendingWords = o.words := by
  simp [State.pendingOut, State.pendingEvents, State.pendingWords, hc]

/-- Everything a command's step that gives a next state can be: going on with the answer on its way; taking bytes that
leave the payload incomplete, or of which some are another command's; or taking the last of the payload and delivering
the command's answer to it. -/
theorem exec_next_cases {i : Instr} {s t : State} (h : exec i s = .next t) :
    (∃ d payload o, s.core = .sending d payload o ∧ t = s.deliver d payload o) ∨
    (s.isSending = false ∧
      (s.received.length + s.din.length < i.len ∨ s.ownsBytes (i.len - s.received.length) = false) ∧
      t.core ≠ .idle ∧ t.isSending = false ∧
      ∃ c, t = (s.withDin (s.din.drop (i.len - s.received.length))).withCore c) ∨
    (s.isSending = false ∧ i.len ≤ s.received.length + s.din.length ∧
      s.ownsBytes (i.len - s.received.length) = true ∧
      ∃ d, t = (s.withDin (s.din.drop (i.len - s.received.length))).deliver d (s.payload i.len)
        (replyFor Config.hardware i (s.payload i.len)).start) := by
  rw [exec_eq_runCommand] at h
  obtain ⟨hin, d, -, -, heq⟩ | ⟨d, payload, o, hc, heq⟩ | ⟨d, payload, -, heq⟩ :=
    runCommand_cases (encode i) i.len (replyFor Config.hardware i) s <;> rw [heq] at h <;> cases h
  · have hs : s.isSending = false := by
      cases hc : s.core <;> simp_all [State.takesInput, State.isSending]
    obtain ⟨hstray, heq⟩ | ⟨-, hshort, heq⟩ | ⟨hown, hfull, heq⟩ :=
      receive_cases s d i.len (replyFor Config.hardware i) s.received <;> rw [heq]
    · exact .inr (.inl ⟨hs, .inr hstray, nofun, rfl, _, rfl⟩)
    · have hnil : s.din.drop (i.len - s.received.length) = [] := List.drop_eq_nil_of_le (by omega)
      exact .inr (.inl ⟨hs, .inl hshort, nofun, rfl, _, by rw [hnil]⟩)
    · exact .inr (.inr ⟨hs, hfull, hown, d, rfl⟩)
  · exact .inl ⟨d, payload, o, hc, rfl⟩

/-- The four commands that are one stage of a path announce nothing (R196). -/
theorem replyFor_events_of_stage (p : Config.Params) {i : Instr} (P : List Byte) {len : Nat}
    (hi : i = .unpack len ∨ i = .expand len ∨ i = .quant len ∨ ∃ w h, i = .pack w h len) :
    (replyFor p i P).events = [] := by
  obtain rfl | rfl | rfl | ⟨w, h, rfl⟩ := hi
  · rfl
  · simp only [replyFor, expandReply]; split <;> rfl
  · simp only [replyFor, quantReply]; split <;> rfl
  · simp only [replyFor, packReply]; repeat' split
    all_goals rfl

/-- Settles O24: a step delivers, and `deliver_frame` says what that leaves; or it waits, and only DIN and the core move. -/
theorem commandLeavesTheRestUnchanged : Obligations.CommandLeavesTheRestUnchanged := by
  intro i s t h
  obtain ⟨d, payload, o, hc, rfl⟩ | ⟨hs, -, hbusy, -, c, rfl⟩ | ⟨hs, -, -, d, rfl⟩ := exec_next_cases h
  · have hs : s.isSending = true := isSending_iff.mpr ⟨d, payload, o, hc⟩
    obtain ⟨hcmd, hrst, hdin, hdout, hevt, hrsp, -, -, -, houts, hevts, hrsps, -, hserial⟩ :=
      deliver_frame s d payload o
    exact ⟨hcmd, hrst, hdout, hevt, hrsp, by simpa [hs] using hdin, hserial, houts, hevts, hrsps, by simp [hs]⟩
  · exact ⟨rfl, rfl, rfl, rfl, rfl, by simp [hs], by rw [if_neg hbusy]; rfl, List.prefix_rfl, List.prefix_rfl,
      List.prefix_rfl, fun _ _ _ => rfl⟩
  · obtain ⟨hcmd, hrst, hdin, hdout, hevt, hrsp, -, -, -, houts, hevts, hrsps, hquiet, hserial⟩ :=
      deliver_frame (s.withDin (s.din.drop (i.len - s.received.length))) d (s.payload i.len)
        (replyFor Config.hardware i (s.payload i.len)).start
    exact ⟨hcmd, hrst, hdout, hevt, hrsp, by simpa [hs] using hdin, hserial, houts, hevts, hrsps,
      fun len hi _ => hquiet (replyFor_events_of_stage _ _ hi)⟩

/-- Settles O25: what is owed goes through `deliver`, which loses, repeats and reorders nothing; a wait delivers
nothing and owes nothing. -/
theorem answerIsDeliveredOnceAndInOrder : Obligations.AnswerIsDeliveredOnceAndInOrder := by
  intro i s t owed h hsending hwaiting hcomplete
  obtain ⟨d, payload, o, hc, rfl⟩ | ⟨hs, hlack, -, ht, c, rfl⟩ | ⟨hs, hfull, hown, d, rfl⟩ := exec_next_cases h
  · obtain ⟨hout, hevents, hwords⟩ := pending_of_sending hc
    obtain ⟨-, -, -, -, -, -, houts, hevts, hrsps, -⟩ := deliver_frame s d payload o
    rw [hsending (isSending_iff.mpr ⟨d, payload, o, hc⟩), hout, hevents, hwords]
    exact ⟨houts, hevts, hrsps⟩
  · obtain ⟨hout, hevents, hwords⟩ := pending_of_not_sending ht
    rw [hwaiting hs hlack, hout, hevents, hwords]
    exact ⟨rfl, rfl, rfl⟩
  · obtain ⟨-, -, -, -, -, -, houts, hevts, hrsps, -⟩ :=
      deliver_frame (s.withDin (s.din.drop (i.len - s.received.length))) d (s.payload i.len)
        (replyFor Config.hardware i (s.payload i.len)).start
    rw [hcomplete hs hfull hown]
    exact ⟨houts, hevts, hrsps⟩

theorem outputDone_iff {o : Outgoing} : o.outputDone = true ↔ o.out = [] ∧ o.events = [] := by
  simp [Outgoing.outputDone]

/-- Delivering puts a word on RSP only when the output has all gone (R54 (c)). -/
theorem deliver_rsp_changes_after_output {s : State} {d : Descriptor} {payload : List Byte} {o : Outgoing}
    (h : (s.deliver d payload o).rsp.items ≠ s.rsp.items) :
    (s.deliver d payload o).pendingOut = [] ∧ (s.deliver d payload o).pendingEvents = [] := by
  obtain ⟨s₁, o₁, n, -, hD, -, hwait, -, -, heq⟩ := deliver_cases s d payload o
  rw [heq] at h ⊢
  split
  case isTrue => exact ⟨rfl, rfl⟩
  case isFalse hleft =>
    rw [if_neg hleft] at h
    have hdone : o₁.outputDone = true := by
      by_contra hnot
      have hrsp : s₁.rsp = s.rsp := hD.rsp
      exact h (by simp [hwait (by simpa using hnot), hrsp])
    obtain ⟨hout, hevents⟩ := outputDone_iff.mp hdone
    exact ⟨hout, hevents⟩

/-- Settles O26: RSP changes only by delivering, which puts words there after the output. -/
theorem responseFollowsEveryByteAndEvent : Obligations.ResponseFollowsEveryByteAndEvent := by
  intro i s t h hne
  obtain ⟨d, payload, o, -, rfl⟩ | ⟨-, -, -, -, c, rfl⟩ | ⟨-, -, -, d, rfl⟩ := exec_next_cases h
  · exact deliver_rsp_changes_after_output hne
  · exact absurd rfl hne
  · exact deliver_rsp_changes_after_output hne

/-! ### A host that drains the output channels (R217, R218, R222) -/

/-- Two parts of an answer, the second behind the first on each channel. -/
def Reply.append (a b : Reply) : Reply := ⟨a.out ++ b.out, a.events ++ b.events, a.words ++ b.words⟩

/-- How many elements there are in an answer, or in a part of one. -/
def Reply.count (r : Reply) : Nat := r.out.length + r.events.length + r.words.length

/-- What stands on DOUT, EVT and RSP. -/
def State.delivered (s : State) : Reply := ⟨s.dout.items, s.evt.items, s.rsp.items⟩

/-- What is still to be delivered of the answer on its way. -/
def State.owed (s : State) : Reply := ⟨s.pendingOut, s.pendingEvents, s.pendingWords⟩

/-- What is left of an answer on its way. -/
def Outgoing.rest (o : Outgoing) : Reply := ⟨o.out, o.events, o.words⟩

/-- The state after the host has taken everything from DOUT, EVT and RSP (R218). -/
def State.hostDrain (s : State) : State :=
  ((s.hostTakeDout s.dout.items.length).hostTakeEvt s.evt.items.length).hostTakeRsp s.rsp.items.length

/-- The output channels are empty and can each hold at least one element. -/
def State.Drained (s : State) : Prop :=
  (s.dout.items = [] ∧ s.evt.items = [] ∧ s.rsp.items = []) ∧
  s.dout.usable = true ∧ s.evt.usable = true ∧ s.rsp.usable = true

theorem Reply.append_assoc (a b c : Reply) : (a.append b).append c = a.append (b.append c) := by
  simp [Reply.append]

@[simp] theorem Reply.append_nil (a : Reply) : a.append ⟨[], [], []⟩ = a := by simp [Reply.append]

@[simp] theorem Reply.nil_append (a : Reply) : Reply.append ⟨[], [], []⟩ a = a := by simp [Reply.append]

theorem Reply.count_append (a b : Reply) : (a.append b).count = a.count + b.count := by
  simp [Reply.append, Reply.count]; omega

theorem Reply.count_pos_iff {r : Reply} : 1 ≤ r.count ↔ r.out ≠ [] ∨ r.events ≠ [] ∨ r.words ≠ [] := by
  simp only [Reply.count, ne_eq, ← List.length_eq_zero_iff]
  omega

theorem Outgoing.rest_count_pos {o : Outgoing} (h : o.done = false) : 1 ≤ o.rest.count := by
  refine Reply.count_pos_iff.mpr ?_
  by_contra hnone
  simp_all [Outgoing.rest, Outgoing.done, Outgoing.outputDone]

theorem owed_of_not_sending {s : State} (h : s.isSending = false) : s.owed = ⟨[], [], []⟩ := by
  obtain ⟨hout, hevents, hwords⟩ := pending_of_not_sending h
  rw [State.owed, hout, hevents, hwords]

theorem owed_of_sending {s : State} {d : Descriptor} {payload : List Byte} {o : Outgoing}
    (hc : s.core = .sending d payload o) : s.owed = o.rest := by
  obtain ⟨hout, hevents, hwords⟩ := pending_of_sending hc
  rw [State.owed, hout, hevents, hwords, Outgoing.rest]

@[simp] theorem hostDrain_core (s : State) : s.hostDrain.core = s.core := rfl
@[simp] theorem hostDrain_cmd (s : State) : s.hostDrain.cmd = s.cmd := rfl
@[simp] theorem hostDrain_din (s : State) : s.hostDrain.din = s.din := rfl
@[simp] theorem hostDrain_rst (s : State) : s.hostDrain.rst = s.rst := rfl
@[simp] theorem hostDrain_owed (s : State) : s.hostDrain.owed = s.owed := rfl

theorem hostDrain_drained {s : State} (hdout : s.dout.usable = true) (hevt : s.evt.usable = true)
    (hrsp : s.rsp.usable = true) : s.hostDrain.Drained :=
  ⟨⟨List.drop_length, List.drop_length, List.drop_length⟩, hdout, hevt, hrsp⟩

/-- One step of a draining host's run: what the step delivers goes behind what the host has. -/
theorem drainRun_succ_of_step {s t : State} (h : step s = .next t) (n : Nat) (got : Reply) :
    drainRun (n + 1) s got = drainRun n t.hostDrain (got.append t.delivered) := by
  simp only [drainRun, h]
  rfl

theorem Channel.usable_congr {α : Type} {b c : Channel α} (h : b.capacity = c.capacity) : b.usable = c.usable := by
  simp [Channel.usable, h]

theorem Channel.one_le_accepts {α : Type} {c : Channel α} (hu : c.usable = true) (he : c.items = []) {n : Nat}
    (hn : 1 ≤ n) : 1 ≤ c.accepts n := by
  cases hc : c.capacity with
  | none => simpa [Channel.accepts, hc] using hn
  | some k =>
    have hk : 1 ≤ k := by simpa [Channel.usable, hc] using hu
    simp only [Channel.accepts, hc, he, List.length_nil]
    omega

/-- A usable channel is full only when it holds something. -/
theorem Channel.items_ne_nil_of_full {α : Type} {c : Channel α} (hu : c.usable = true) (hfull : c.hasRoom 1 = false) :
    c.items ≠ [] := by
  intro he
  have hone := Channel.one_le_accepts hu he le_rfl
  have hle := c.accepts_le 1
  simp only [Channel.hasRoom, beq_eq_false_iff_ne] at hfull
  omega

theorem Delivers.out_append {a b : State × Outgoing} (h : Delivers a b) :
    b.1.dout.items ++ b.2.out = a.1.dout.items ++ a.2.out := by
  obtain ⟨n, -, hdout, hout, -⟩ := h.out
  simp [hdout, hout]

theorem Delivers.events_append {a b : State × Outgoing} (h : Delivers a b) :
    b.1.evt.items ++ b.2.events = a.1.evt.items ++ a.2.events := by
  obtain ⟨n, -, hevt, hevents, -⟩ := h.events
  simp [hevt, hevents]

theorem Delivers.usable {a b : State × Outgoing} (h : Delivers a b) :
    b.1.dout.usable = a.1.dout.usable ∧ b.1.evt.usable = a.1.evt.usable := by
  obtain ⟨n, -, hdout, -⟩ := h.out
  obtain ⟨m, -, hevt, -⟩ := h.events
  exact ⟨Channel.usable_congr (by rw [hdout]; rfl), Channel.usable_congr (by rw [hevt]; rfl)⟩

/-- Drained channels take some of the output that is left: `sendOutput` stops only when all has gone or a channel is
full. -/
theorem sendOutput_makes_progress {s : State} {o : Outgoing} (hs : s.Drained) (ho : o.outputDone = false) :
    (sendOutput s o).1.dout.items ≠ [] ∨ (sendOutput s o).1.evt.items ≠ [] := by
  obtain ⟨⟨hdout, hevt, -⟩, udout, uevt, -⟩ := hs
  have hD := delivers_sendOutput s o
  obtain ⟨hudout, huevt⟩ := hD.usable
  obtain hdone | ⟨-, hfull⟩ | ⟨-, hfull⟩ := sendOutput_stops s o
  · obtain ⟨hout', hevents'⟩ := outputDone_iff.mp hdone
    have hout := hD.out_append
    have hevents := hD.events_append
    rw [hout', List.append_nil, hdout, List.nil_append] at hout
    rw [hevents', List.append_nil, hevt, List.nil_append] at hevents
    rw [hout, hevents]
    by_contra hnone
    simp_all [Outgoing.outputDone]
  · exact .inl (Channel.items_ne_nil_of_full (hudout.trans udout) hfull)
  · exact .inr (Channel.items_ne_nil_of_full (huevt.trans uevt) hfull)

/-- On drained channels an answer that is not yet delivered makes progress. -/
theorem deliver_makes_progress {s : State} {d : Descriptor} {payload : List Byte} {o : Outgoing} (hs : s.Drained)
    (ho : o.done = false) : 1 ≤ (s.deliver d payload o).delivered.count := by
  obtain ⟨s₁, o₁, n, hsend, hD, -, -, hroom, -, heq⟩ := deliver_cases s d payload o
  have hitems : (s.deliver d payload o).delivered =
      ⟨s₁.dout.items, s₁.evt.items, s₁.rsp.items ++ o₁.words.take n⟩ := by
    rw [heq]; split <;> rfl
  rw [hitems, Reply.count_pos_iff]
  cases hout : o.outputDone with
  | false =>
    have hprogress := sendOutput_makes_progress hs hout
    rw [hsend] at hprogress
    exact hprogress.imp id .inl
  | true =>
    obtain ⟨⟨-, -, hempty⟩, -, -, ursp⟩ := hs
    have hrsp : s₁.rsp = s.rsp := hD.rsp
    have hwords : o₁.words = o.words := hD.words
    have hleft : o.words ≠ [] := by simpa [Outgoing.done, hout] using ho
    have hn : 1 ≤ n := by
      rw [hroom (hD.outputDone hout), hrsp, hwords]
      exact Channel.one_le_accepts ursp hempty (List.length_pos_iff.mpr hleft)
    exact .inr (.inr (by simpa [hrsp, hempty, hwords, hleft] using Nat.one_le_iff_ne_zero.mp hn))

/-- What `deliver` puts on drained channels and what it leaves owing make up what was left of the answer. -/
theorem deliver_delivered_append_owed {s : State} {d : Descriptor} {payload : List Byte} {o : Outgoing}
    (hs : s.Drained) :
    (s.deliver d payload o).delivered.append (s.deliver d payload o).owed = o.rest := by
  obtain ⟨⟨hdout, hevt, hrsp⟩, -⟩ := hs
  obtain ⟨-, -, -, -, -, -, hout, hevents, hwords, -⟩ := deliver_frame s d payload o
  rw [hdout, List.nil_append] at hout
  rw [hevt, List.nil_append] at hevents
  rw [hrsp, List.nil_append] at hwords
  rw [Reply.append, Outgoing.rest, ← hout, ← hevents, ← hwords]
  rfl

theorem deliver_core (s : State) (d : Descriptor) (payload : List Byte) (o : Outgoing) :
    (s.deliver d payload o).core = .idle ∨
      ∃ o', (s.deliver d payload o).core = .sending d payload o' ∧ o'.done = false := by
  obtain ⟨s₁, o₁, n, -, -, -, -, -, -, heq⟩ := deliver_cases s d payload o
  rw [heq]
  split
  case isTrue => exact .inl rfl
  case isFalse hleft => exact .inr ⟨_, rfl, by simpa [Outgoing.done] using hleft⟩

/-- The state of a core between two steps of a draining host that has issued nothing more: what is left of the answer
goes on, or the command has ended. -/
structure State.Answering (s : State) : Prop where
  rst : s.rst = false
  cmd : s.cmd = []
  drained : s.Drained
  core : s.core = .idle ∨
    ∃ d payload o, s.core = .sending d payload o ∧ decode d ≠ .refused ∧ o.done = false

theorem deliver_answering {s : State} {d : Descriptor} (payload : List Byte) (o : Outgoing) (hrst : s.rst = false)
    (hcmd : s.cmd = []) (hs : s.Drained) (hd : decode d ≠ .refused) :
    (s.deliver d payload o).hostDrain.Answering := by
  obtain ⟨-, udout, uevt, ursp⟩ := hs
  obtain ⟨hcmd', hrst', -, hdout, hevt, hrsp, -⟩ := deliver_frame s d payload o
  refine ⟨hrst'.trans hrst, hcmd'.trans hcmd, hostDrain_drained ?_ ?_ ?_, ?_⟩
  · exact (Channel.usable_congr hdout).trans udout
  · exact (Channel.usable_congr hevt).trans uevt
  · exact (Channel.usable_congr hrsp).trans ursp
  · exact (deliver_core s d payload o).imp id fun ⟨o', hc, ho'⟩ => ⟨d, payload, o', hc, hd, ho'⟩

/-- A sending core goes on delivering (R24). -/
theorem step_of_sending {s : State} {d : Descriptor} {payload : List Byte} {o : Outgoing} (hrst : s.rst = false)
    (hc : s.core = .sending d payload o) (hd : decode d ≠ .refused) : step s = .next (s.deliver d payload o) := by
  obtain ⟨respond, -, hstep⟩ := step_of_fetch hrst (fetch_of_busy (.inr (.inl ⟨o, hc⟩))) hd
  rw [hstep]
  simp [runCommand, hc]

/-- An idle core without a descriptor to take waits (R217). -/
theorem step_of_idle_cmd_nil {s : State} (hrst : s.rst = false) (hc : s.core = .idle) (hcmd : s.cmd = []) :
    step s = .next s := by
  simp [step, fetch, hrst, hc, hcmd]

/-- One step of an answering core delivers a first part of what is owed, at least one element if anything is. -/
theorem step_of_answering {s : State} (hs : s.Answering) :
    ∃ t, step s = .next t ∧ t.hostDrain.Answering ∧ t.din = s.din ∧ t.delivered.append t.owed = s.owed ∧
      t.owed.count ≤ s.owed.count - 1 := by
  obtain ⟨hrst, hcmd, hdrained, hc | ⟨d, payload, o, hc, hd, ho⟩⟩ := hs
  · obtain ⟨⟨hdout, hevt, hrsp⟩, udout, uevt, ursp⟩ := hdrained
    have howed := owed_of_not_sending (s := s) (by simp [State.isSending, hc])
    refine ⟨s, step_of_idle_cmd_nil hrst hc hcmd, ⟨hrst, hcmd, hostDrain_drained udout uevt ursp, .inl hc⟩, rfl, ?_, ?_⟩
    · rw [State.delivered, hdout, hevt, hrsp, Reply.nil_append]
    · rw [howed]; exact Nat.zero_le _
  · have hparts := deliver_delivered_append_owed (d := d) (payload := payload) (o := o) hdrained
    have hprogress := deliver_makes_progress (d := d) (payload := payload) hdrained ho
    obtain ⟨-, -, hdin, -⟩ := deliver_frame s d payload o
    rw [← owed_of_sending hc] at hparts
    refine ⟨_, step_of_sending hrst hc hd, deliver_answering payload o hrst hcmd hdrained hd, hdin, hparts, ?_⟩
    rw [← hparts, Reply.count_append]
    omega

/-- As many steps as elements are owed are enough for a draining host to have them all. -/
theorem drainRun_of_answering {n : Nat} {s : State} (got : Reply) (hs : s.Answering) (hn : s.owed.count ≤ n) :
    ∃ t, drainRun n s got = some (t, got.append s.owed) ∧
      t.core = .idle ∧ t.cmd = [] ∧ t.din = s.din ∧ t.rst = false := by
  induction n generalizing s got with
  | zero =>
    obtain hc | ⟨d, payload, o, hc, -, ho⟩ := hs.core
    · refine ⟨s, ?_, hc, hs.cmd, rfl, hs.rst⟩
      rw [owed_of_not_sending (by simp [State.isSending, hc]), Reply.append_nil]
      rfl
    · have hpos := Outgoing.rest_count_pos ho
      rw [← owed_of_sending hc] at hpos
      omega
  | succ n ih =>
    obtain ⟨u, hstep, hu, hdin, hparts, hcount⟩ := step_of_answering hs
    obtain ⟨t, hrun, hcore, hcmd, hdin', hrst⟩ := ih (got.append u.delivered) hu (by rw [hostDrain_owed]; omega)
    refine ⟨t, ?_, hcore, hcmd, hdin'.trans hdin, hrst⟩
    rw [drainRun_succ_of_step hstep, hrun, hostDrain_owed, Reply.append_assoc, hparts]

/-- An idle core with a descriptor and its own payload takes both in one step and begins to deliver the answer. -/
theorem step_delivers_answer {s : State} {d : Descriptor} {r : Reply} (hrst : s.rst = false) (hc : s.core = .idle)
    (hcmd : s.cmd = d.words) (hready : s.payloadReady d.len) (ha : answer d (s.nextBytes d.len) = some r) :
    step s = .next ((((s.withCmd []).withCore (.receiving d [])).withDin (s.din.drop d.len)).deliver d
      (s.nextBytes d.len) r.start) := by
  obtain ⟨hlen, hown⟩ := hready
  have hf := fetch_of_idle (rest := []) hc (by rw [hcmd, List.append_nil])
  obtain ⟨respond, hrespond, hstep⟩ := step_of_fetch hrst hf (decode_ne_refused_of_answer ha)
  obtain rfl : respond (s.nextBytes d.len) = r := Option.some.inj ((hrespond _).symm.trans ha)
  rw [hstep]
  obtain ⟨hstray, -⟩ | ⟨-, hshort, -⟩ | ⟨-, -, heq⟩ :=
    receive_cases ((s.withCmd []).withCore (.receiving d [])) d d.len respond []
  · exact absurd (hown.symm.trans hstray) nofun
  · simp at hshort; omega
  · exact congrArg Host.Outcome.next heq

/-- With drained channels, that step delivers a first part of the answer and leaves the rest owed. -/
theorem step_starts_answering {s : State} {d : Descriptor} {r : Reply} (hrst : s.rst = false) (hc : s.core = .idle)
    (hcmd : s.cmd = d.words) (hready : s.payloadReady d.len) (ha : answer d (s.nextBytes d.len) = some r)
    (hs : s.Drained) :
    ∃ t, step s = .next t ∧ t.hostDrain.Answering ∧ t.din = s.din.drop d.len ∧ t.delivered.append t.owed = r := by
  obtain ⟨-, -, hdin, -⟩ := deliver_frame (((s.withCmd []).withCore (.receiving d [])).withDin (s.din.drop d.len)) d
    (s.nextBytes d.len) r.start
  exact ⟨_, step_delivers_answer hrst hc hcmd hready ha,
    deliver_answering _ _ hrst rfl hs (decode_ne_refused_of_answer ha), hdin, deliver_delivered_append_owed hs⟩

/-- Settles O56: the first step begins to deliver the answer, and from there every step delivers one element or more of
it; there are at most `16 * LEN + 6`. -/
theorem drainingHostGetsTheWholeAnswer : Obligations.DrainingHostGetsTheWholeAnswer := by
  intro s d r _ hrst hc hcmd hready ha hdout hevt hrsp udout uevt ursp
  obtain ⟨u, hstep, hu, hdin, hparts⟩ :=
    step_starts_answering hrst hc hcmd hready ha ⟨⟨hdout, hevt, hrsp⟩, udout, uevt, ursp⟩
  have hsize : r.count ≤ 16 * d.len + 6 := answer_size_le (by simpa [State.nextBytes] using hready.1) ha
  rw [← hparts, Reply.count_append] at hsize
  obtain ⟨t, hrun, hcore, hcmd', hdin', hrst'⟩ :=
    drainRun_of_answering (n := 16 * d.len + 15) u.delivered hu (by rw [hostDrain_owed]; omega)
  refine ⟨t, ?_, hcore, hcmd', hdin'.trans hdin, hrst'⟩
  rw [drainRun_succ_of_step hstep, Reply.nil_append, hrun, hostDrain_owed, hparts]

end Sys2Proof.Machine
end

section
/-! The encoding (30_encoding): the operands as words, the decoder row by row of the opcode map, decode against encode,
and the status and image size that a response carries. -/

namespace Sys2Proof.Machine

/-! ### Operands and the words that carry them (R14, R63) -/

theorem sext32_eq_toInt (w : Word) : sext32 w = w.toInt := by
  have hw : w.toNat < 2 ^ 32 := w.isLt
  rw [sext32, BitVec.toInt_eq_toNat_cond]
  split <;> split <;> omega

@[simp] theorem ofInt_sext32 (w : Word) : BitVec.ofInt 32 (sext32 w) = w := by
  rw [sext32_eq_toInt, BitVec.ofInt_toInt]

/-- The widths in range are exactly what the words read as (R63). -/
theorem widthInRange_iff {width : Int} : widthInRange width = true ↔ ∃ w : Word, sext32 w = width := by
  simp only [widthInRange, Bool.and_eq_true, decide_eq_true_eq, sext32_eq_toInt]
  constructor
  · rintro ⟨hlow, hhigh⟩
    exact ⟨BitVec.ofInt 32 width, BitVec.toInt_ofInt_eq_self (by omega) (by omega) (by omega)⟩
  · rintro ⟨w, rfl⟩
    have hlow := w.le_toInt
    have hhigh := w.toInt_lt
    omega

/-- The heights in range are exactly what the words read as (R63). -/
theorem heightInRange_iff {height : Nat} : heightInRange height = true ↔ ∃ w : Word, w.toNat = height := by
  rw [heightInRange, decide_eq_true_eq]
  constructor
  · exact fun h => ⟨BitVec.ofNat 32 height, Nat.mod_eq_of_lt (by omega)⟩
  · rintro ⟨w, rfl⟩
    exact Nat.le_of_lt_succ w.isLt

/-- The payload lengths in range are exactly what the words that the decoder does not refuse read as (R63, R73 (d)). -/
theorem lenInRange_iff {p : Config.Params} {len : Nat} :
    lenInRange p len = true ↔ ∃ w : Word, w.toNat ≤ p.lmax ∧ w.toNat = len := by
  have hword := heightInRange_iff (height := len)
  simp only [lenInRange, heightInRange, Bool.and_eq_true, decide_eq_true_eq] at hword ⊢
  rw [hword]
  constructor
  · rintro ⟨hlen, w, rfl⟩
    exact ⟨w, hlen, rfl⟩
  · rintro ⟨w, hlen, rfl⟩
    exact ⟨hlen, w, rfl⟩

/-! ### The decoder, one equation per row of the opcode map (R64 to R72) -/

theorem op_eq_mod (d : Descriptor) : d.op = d.w0.toNat % 256 := rfl

theorem rsv0_eq_div (d : Descriptor) : d.rsv0 = d.w0.toNat / 256 := by
  have hw : d.w0.toNat < 2 ^ 32 := d.w0.isLt
  simp only [Descriptor.rsv0, bitField, Nat.shiftRight_eq_div_pow]
  omega

section Rows
variable {p : Config.Params} {w1 w2 w3 : Word} (hlen : w3.toNat ≤ p.lmax)
include hlen

theorem decodeFor_unpack :
    decodeFor p ⟨1#32, w1, w2, w3⟩ = requireUnused (w1 == 0 && w2 == 0) (.unpack w3.toNat) := by
  simp [decodeFor, rsv0_eq_div, op_eq_mod, Descriptor.len, hlen.not_gt]

theorem decodeFor_expand :
    decodeFor p ⟨2#32, w1, w2, w3⟩ = requireUnused (w1 == 0 && w2 == 0) (.expand w3.toNat) := by
  simp [decodeFor, rsv0_eq_div, op_eq_mod, Descriptor.len, hlen.not_gt]

theorem decodeFor_dec :
    decodeFor p ⟨3#32, w1, w2, w3⟩ = requireUnused (w2 == 0) (.dec (sext32 w1) w3.toNat) := by
  simp [decodeFor, rsv0_eq_div, op_eq_mod, Descriptor.len, Descriptor.width, hlen.not_gt]

theorem decodeFor_quant :
    decodeFor p ⟨4#32, w1, w2, w3⟩ = requireUnused (w1 == 0 && w2 == 0) (.quant w3.toNat) := by
  simp [decodeFor, rsv0_eq_div, op_eq_mod, Descriptor.len, hlen.not_gt]

theorem decodeFor_pack :
    decodeFor p ⟨5#32, w1, w2, w3⟩ = .command (.pack (sext32 w1) w2.toNat w3.toNat) := by
  simp [decodeFor, rsv0_eq_div, op_eq_mod, Descriptor.len, Descriptor.width, Descriptor.height, hlen.not_gt]

theorem decodeFor_enc :
    decodeFor p ⟨6#32, w1, w2, w3⟩ = .command (.enc (sext32 w1) w2.toNat w3.toNat) := by
  simp [decodeFor, rsv0_eq_div, op_eq_mod, Descriptor.len, Descriptor.width, Descriptor.height, hlen.not_gt]

end Rows

/-- R73 (a), (b): a W0 that no row of the opcode map has. -/
theorem decodeFor_reserved {p : Config.Params} {d : Descriptor} (hlen : d.len ≤ p.lmax)
    (hw0 : d.w0.toNat = 0 ∨ 6 < d.w0.toNat) : ∃ cause, decodeFor p d = .illegal cause := by
  have hrsv := rsv0_eq_div d
  have hop := op_eq_mod d
  rw [decodeFor, if_neg hlen.not_gt]
  by_cases hzero : d.rsv0 = 0
  · rw [if_neg (not_not.mpr hzero)]
    split
    case h_7 => exact ⟨_, rfl⟩
    all_goals omega
  · exact ⟨_, if_pos hzero⟩

/-- W0 is reserved, or stands in one of the six rows of the opcode map (R66). -/
theorem w0_cases (w : Word) :
    (w.toNat = 0 ∨ 6 < w.toNat) ∨ w = 1#32 ∨ w = 2#32 ∨ w = 3#32 ∨ w = 4#32 ∨ w = 5#32 ∨ w = 6#32 := by
  bv_omega

@[simp] theorem requireUnused_eq_command_iff {unusedIsZero : Bool} {i j : Instr} :
    requireUnused unusedIsZero i = .command j ↔ unusedIsZero = true ∧ i = j := by
  cases unusedIsZero <;> simp [requireUnused]

@[simp] theorem requireUnused_eq_illegal_iff {unusedIsZero : Bool} {i : Instr} {cause : IllegalCause} :
    requireUnused unusedIsZero i = .illegal cause ↔ unusedIsZero = false ∧ cause = .unusedField := by
  cases unusedIsZero <;> simp [requireUnused, eq_comm]

/-! ### Decode and encode agree (R63 to R73) -/

/-- Settles O12: each operand in range is what some word reads as, `encode` puts that word in the operand's field, and
the command's row of the decoder reads it there. -/
theorem encodedCommandDecodesToItself : Obligations.EncodedCommandDecodesToItself := by
  intro p i hi
  cases i <;>
    simp only [Instr.wellFormedFor, Bool.and_eq_true, widthInRange_iff, heightInRange_iff, lenInRange_iff] at hi
  case unpack =>
    obtain ⟨w3, hlen, rfl⟩ := hi
    simp [encode, decodeFor_unpack hlen]
  case expand =>
    obtain ⟨w3, hlen, rfl⟩ := hi
    simp [encode, decodeFor_expand hlen]
  case dec =>
    obtain ⟨⟨w1, rfl⟩, w3, hlen, rfl⟩ := hi
    simp [encode, decodeFor_dec hlen]
  case quant =>
    obtain ⟨w3, hlen, rfl⟩ := hi
    simp [encode, decodeFor_quant hlen]
  case pack =>
    obtain ⟨⟨⟨w1, rfl⟩, w2, rfl⟩, w3, hlen, rfl⟩ := hi
    simp [encode, decodeFor_pack hlen]
  case enc =>
    obtain ⟨⟨⟨w1, rfl⟩, w2, rfl⟩, w3, hlen, rfl⟩ := hi
    simp [encode, decodeFor_enc hlen]

/-- Settles O13: the row of the opcode map that gives the command also fixes every word of the descriptor. -/
theorem decodedDescriptorIsItsEncoding : Obligations.DecodedDescriptorIsItsEncoding := by
  intro p d i h
  have hlen : d.len ≤ p.lmax := by
    by_contra hgt
    rw [decodeFor_eq_refused_iff.mpr (not_le.mp hgt)] at h
    cases h
  obtain ⟨w0, w1, w2, w3⟩ := d
  have hlen3 : lenInRange p w3.toNat = true := lenInRange_iff.mpr ⟨w3, hlen, rfl⟩
  have hwidth : widthInRange (sext32 w1) = true := widthInRange_iff.mpr ⟨w1, rfl⟩
  have hheight : heightInRange w2.toNat = true := heightInRange_iff.mpr ⟨w2, rfl⟩
  obtain hw0 | rfl | rfl | rfl | rfl | rfl | rfl := w0_cases w0
  · obtain ⟨cause, hill⟩ := decodeFor_reserved hlen hw0
    rw [hill] at h
    cases h
  · simp only [decodeFor_unpack hlen, requireUnused_eq_command_iff, Bool.and_eq_true, beq_iff_eq] at h
    obtain ⟨⟨rfl, rfl⟩, rfl⟩ := h
    simp [Instr.wellFormedFor, encode, hlen3]
  · simp only [decodeFor_expand hlen, requireUnused_eq_command_iff, Bool.and_eq_true, beq_iff_eq] at h
    obtain ⟨⟨rfl, rfl⟩, rfl⟩ := h
    simp [Instr.wellFormedFor, encode, hlen3]
  · simp only [decodeFor_dec hlen, requireUnused_eq_command_iff, beq_iff_eq] at h
    obtain ⟨rfl, rfl⟩ := h
    simp [Instr.wellFormedFor, encode, hlen3, hwidth]
  · simp only [decodeFor_quant hlen, requireUnused_eq_command_iff, Bool.and_eq_true, beq_iff_eq] at h
    obtain ⟨⟨rfl, rfl⟩, rfl⟩ := h
    simp [Instr.wellFormedFor, encode, hlen3]
  · obtain rfl := Verdict.command.inj ((decodeFor_pack hlen).symm.trans h)
    simp [Instr.wellFormedFor, encode, hlen3, hwidth, hheight]
  · obtain rfl := Verdict.command.inj ((decodeFor_enc hlen).symm.trans h)
    simp [Instr.wellFormedFor, encode, hlen3, hwidth, hheight]

/-- Within `LMAX` the decoder finds a descriptor illegal exactly where R73 (a), (b), (c) does. -/
theorem decodeFor_eq_illegal_iff {p : Config.Params} {d : Descriptor} (hlen : d.len ≤ p.lmax) :
    (∃ cause, decodeFor p d = .illegal cause) ↔ Rules.isIllegal d := by
  obtain ⟨w0, w1, w2, w3⟩ := d
  obtain hw0 | rfl | rfl | rfl | rfl | rfl | rfl := w0_cases w0
  · exact iff_of_true (decodeFor_reserved hlen hw0) (hw0.imp_right .inl)
  · simp [decodeFor_unpack hlen, Rules.isIllegal, imp_iff_not_or]
  · simp [decodeFor_expand hlen, Rules.isIllegal, imp_iff_not_or]
  · simp [decodeFor_dec hlen, Rules.isIllegal]
  · simp [decodeFor_quant hlen, Rules.isIllegal, imp_iff_not_or]
  · simp [decodeFor_pack hlen, Rules.isIllegal]
  · simp [decodeFor_enc hlen, Rules.isIllegal]

/-- Settles O14: LEN alone decides refusal, and a descriptor that is not refused has `LEN` within `LMAX`. -/
theorem illegalAndRefusedDescriptorsAreThose : Obligations.IllegalAndRefusedDescriptorsAreThose := by
  intro d
  refine ⟨decode_eq_refused_iff, ?_⟩
  by_cases hlen : d.w3.toNat ≤ 268435455
  · rw [and_iff_right hlen]
    exact decodeFor_eq_illegal_iff hlen
  · simp [hlen, decode_eq_refused_iff.mpr (not_le.mp hlen)]

/-- Settles O17, by decoding each. -/
theorem workedEncodingsDecode : Obligations.WorkedEncodingsDecode := by
  unfold Obligations.WorkedEncodingsDecode
  decide

/-! ### Status and image size of a response (R74, R75, R76) -/

@[simp] theorem faultReply_status (st : Status) : (faultReply st).status = st.code := status_of_responseWords rfl

/-- The response reports no image: `OW` and `OH` are zero (R76). -/
def Reply.Imageless (r : Reply) : Prop := ∃ st olen, r.words = responseWords st 0 0 olen

theorem okReply_imageless (olen : Nat) (out : List Byte) (events : List EventRecord) :
    (okReply 0 0 olen out events).Imageless := ⟨.ok, olen, rfl⟩

theorem faultReply_imageless (st : Status) : (faultReply st).Imageless := ⟨st, 0, rfl⟩

theorem expandReply_imageless (len : Nat) (P : List Byte) : (expandReply len P).Imageless := by
  unfold expandReply
  split
  · exact faultReply_imageless _
  · exact okReply_imageless _ _ _

theorem quantReply_imageless (len : Nat) (P : List Byte) : (quantReply len P).Imageless := by
  unfold quantReply
  split
  · exact faultReply_imageless _
  · exact okReply_imageless _ _ _

theorem packReply_imageless (width : Int) (height len : Nat) (P : List Byte) :
    (packReply width height len P).Imageless := by
  unfold packReply
  repeat' split
  case isFalse => exact okReply_imageless _ _ _
  all_goals exact faultReply_imageless _

theorem encReply_imageless (p : Config.Params) (width : Int) (height len : Nat) (P : List Byte) :
    (encReply p width height len P).Imageless := by
  unfold encReply
  repeat' split
  case isFalse => exact okReply_imageless _ _ _
  all_goals exact faultReply_imageless _

/-- DEC alone reports an image (R76). -/
theorem replyFor_imageless (p : Config.Params) {i : Instr} (P : List Byte) (hi : ∀ width len, i ≠ .dec width len) :
    (replyFor p i P).Imageless := by
  cases i with
  | unpack len => exact okReply_imageless _ _ _
  | expand len => exact expandReply_imageless len P
  | dec width len => exact absurd rfl (hi width len)
  | quant len => exact quantReply_imageless len P
  | pack width height len => exact packReply_imageless width height len P
  | enc width height len => exact encReply_imageless p width height len P

/-- DEC faults on its width alone, and reports an image of that width and of the derived height (R107, R110). -/
theorem decReply_cases (p : Config.Params) (width : Int) (len : Nat) (P : List Byte) :
    (width ≤ 0 ∧ decReply p width len P = faultReply .invalidWidth) ∨
    (0 < width ∧ ∃ olen,
      (decReply p width len P).words = responseWords .ok width.toNat (rows (flatCount len) width.toNat) olen) := by
  unfold decReply
  split
  next h => exact .inl ⟨invalidWidth_eq_true.mp h, rfl⟩
  next h => exact .inr ⟨not_le.mp (mt invalidWidth_eq_true.mpr h), _, rfl⟩

/-- The status of an answer is the code of a constructor of `Status`, which has none for the reserved codes (R181). -/
theorem replyFor_status_eq_code (p : Config.Params) (i : Instr) (P : List Byte) :
    ∃ st : Status, (replyFor p i P).status = st.code := by
  by_cases hi : ∃ width len, i = .dec width len
  · obtain ⟨width, len, rfl⟩ := hi
    obtain ⟨-, h⟩ | ⟨-, olen, h⟩ := decReply_cases p width len P
    · exact ⟨_, (congrArg Reply.status h).trans (faultReply_status _)⟩
    · exact ⟨_, status_of_responseWords h⟩
  · obtain ⟨st, olen, h⟩ := replyFor_imageless p P (fun width len h => hi ⟨width, len, h⟩)
    exact ⟨st, status_of_responseWords h⟩

theorem answer_status_eq_code {d : Descriptor} {P : List Byte} {r : Reply} (h : answer d P = some r) :
    ∃ st : Status, r.status = st.code := by
  unfold answer at h
  split at h <;> cases h
  · exact replyFor_status_eq_code _ _ _
  · exact ⟨_, faultReply_status _⟩

/-- Settles O31: the five constructors of `Status` have the five codes. -/
theorem reservedStatusCodesAreNeverProduced : Obligations.ReservedStatusCodesAreNeverProduced := by
  intro d P r h
  obtain ⟨st, hst⟩ := answer_status_eq_code h
  rw [hst]
  cases st <;> simp [Status.code]

/-- Settles O33: what a DEC reports is too small to overflow its word, and no other command reports an image. -/
theorem imageSizeIsReportedByDecAlone : Obligations.ImageSizeIsReportedByDecAlone := by
  intro p i P hp hi hP hok
  constructor
  · rintro w len rfl
    obtain ⟨-, h⟩ | ⟨-, olen, h⟩ := decReply_cases p w len P
    · rw [replyFor, h, faultReply_status] at hok
      cases hok
    · have hbound : 16 * len < 2 ^ 32 := sixteen_mul_len_lt hp hi
      have hw : (w : Int) ≤ 2147483647 := by simp_all [Instr.wellFormedFor, widthInRange]
      have hheight : rows (flatCount len) w ≤ 8 * (len / 2) := Nat.div_le_self _ _
      rw [replyFor, h, Int.toNat_natCast]
      exact ⟨Nat.mod_eq_of_lt (by omega), Nat.mod_eq_of_lt (by omega)⟩
  · intro hdec
    obtain ⟨st, olen, h⟩ := replyFor_imageless p P hdec
    rw [h]
    exact ⟨rfl, rfl⟩

end Sys2Proof.Machine
end

section
/-! The decode path (40_decode_path): what unpacking and expanding make of a payload, element by element, and the three
commands UNPACK, EXPAND and DEC. -/

namespace Sys2Proof.Machine

open Sys2Proof.Rules

/-! ### Plane pairs and indices (R101, R103) -/

theorem bit_eq_toNat_getLsbD (b : Byte) (p : Nat) : bit b p = (b.getLsbD p).toNat := by
  rw [bit, Nat.and_one_is_mod, Nat.shiftRight_eq_div_pow, BitVec.getLsbD, Nat.toNat_testBit]

/-- An index is what its two plane bits say (R101). -/
theorem planeIndex_toNat (b0 b1 : Byte) (p : Nat) :
    (planeIndex b0 b1 p).toNat = (b0.getLsbD p).toNat + 2 * (b1.getLsbD p).toNat := by
  rw [planeIndex, twoBit_toNat (bit_le_one b0 p) (bit_le_one b1 p), bit_eq_toNat_getLsbD, bit_eq_toNat_getLsbD]

theorem bool_eq_of_toNat_eq {b c : Bool} (h : b.toNat = c.toNat) : b = c := by
  rw [← Bool.ofNat_toNat b, h, Bool.ofNat_toNat]

/-- An index tells both of its plane bits (R103). -/
theorem planeBits_eq_of_planeIndex_eq {b0 b1 c0 c1 : Byte} {p : Nat} (h : planeIndex b0 b1 p = planeIndex c0 c1 p) :
    b0.getLsbD p = c0.getLsbD p ∧ b1.getLsbD p = c1.getLsbD p := by
  have hsum := congrArg BitVec.toNat h
  rw [planeIndex_toNat, planeIndex_toNat] at hsum
  have hb := (b0.getLsbD p).toNat_le
  have hc := (c0.getLsbD p).toNat_le
  exact ⟨bool_eq_of_toNat_eq (by omega), bool_eq_of_toNat_eq (by omega)⟩

theorem mem_bitPositions {p : Nat} : p ∈ bitPositions ↔ p < 8 := by
  simp only [bitPositions, List.mem_cons, List.not_mem_nil, or_false]
  omega

theorem unpack_pair (b0 b1 : Byte) : unpack [b0, b1] = bitPositions.map (planeIndex b0 b1) :=
  List.append_nil _

theorem unpack_pair_injective {b0 b1 c0 c1 : Byte} (h : unpack [b0, b1] = unpack [c0, c1]) : b0 = c0 ∧ b1 = c1 := by
  have hbits : ∀ p, p < 8 → b0.getLsbD p = c0.getLsbD p ∧ b1.getLsbD p = c1.getLsbD p := by
    rw [unpack_pair, unpack_pair, List.map_inj_left] at h
    exact fun p hp => planeBits_eq_of_planeIndex_eq (h p (mem_bitPositions.mpr hp))
  exact ⟨BitVec.eq_of_getLsbD_eq fun p hp => (hbits p hp).1, BitVec.eq_of_getLsbD_eq fun p hp => (hbits p hp).2⟩

/-- Plane `k` of eight indices: the byte that holds bit `k` of each, the first index at bit 7. -/
def planeByte (k : Nat) (v : List Byte) : Byte := BitVec.ofFnLE fun p : Fin 8 => (v.getD (7 - p) 0).getLsbD k

theorem planeByte_getLsbD (k : Nat) (v : List Byte) {p : Nat} (hp : p < 8) :
    (planeByte k v).getLsbD p = (v.getD (7 - p) 0).getLsbD k := by
  simp [planeByte, hp]

/-- A value of 0 to 3 is its two low bits. -/
theorem toNat_eq_two_bits {i : Byte} (hi : i.toNat ≤ 3) : i.toNat = (i.getLsbD 0).toNat + 2 * (i.getLsbD 1).toNat := by
  rw [BitVec.getLsbD, BitVec.getLsbD, Nat.toNat_testBit, Nat.toNat_testBit]
  omega

theorem planeIndex_planeByte {v : List Byte} (hv : ∀ i, i ∈ v → i.toNat ≤ 3) {j : Nat} (hj : j < v.length)
    (h8 : j < 8) : planeIndex (planeByte 0 v) (planeByte 1 v) (7 - j) = v.getD j 0 := by
  have hplace : 7 - (7 - j) = j := by omega
  have hle : (v.getD j 0).toNat ≤ 3 := hv _ (by rw [List.getD_eq_getElem _ _ hj]; exact List.getElem_mem hj)
  apply BitVec.eq_of_toNat_eq
  rw [planeIndex_toNat, planeByte_getLsbD _ _ (by omega), planeByte_getLsbD _ _ (by omega), hplace,
    toNat_eq_two_bits hle]

theorem unpack_planeBytes {v : List Byte} (hlen : v.length = 8) (hv : ∀ i, i ∈ v → i.toNat ≤ 3) :
    unpack [planeByte 0 v, planeByte 1 v] = v := by
  have hpair : (unpack [planeByte 0 v, planeByte 1 v]).length = 8 := rfl
  apply List.ext_getElem (hpair.trans hlen.symm)
  intro j h₁ h₂
  rw [← List.getD_eq_getElem _ 0 h₁, ← List.getD_eq_getElem _ 0 h₂, ← planeIndex_planeByte hv h₂ (by omega)]
  have hpair0 : j / 8 = 0 := by omega
  have hplace : j % 8 = j := by omega
  rw [unpack_getD _ _ (by simp; omega), hpair0, hplace]
  rfl

/-- Settles O36: a byte of the pair is its plane's bits of the indices, bit by bit. -/
theorem planePairDeterminesAndIsDeterminedByIndices : Obligations.PlanePairDeterminesAndIsDeterminedByIndices :=
  ⟨fun _ _ _ _ h => unpack_pair_injective h,
    fun v hlen hv => ⟨planeByte 0 v, planeByte 1 v, unpack_planeBytes hlen hv⟩⟩

/-- Settles O37, by taking the pairs off one at a time: the odd byte is left without a partner. -/
theorem oddTrailingByteIsIgnored : Obligations.OddTrailingByteIsIgnored := by
  intro P b heven
  induction P using unpack.induct with
  | case1 b0 b1 rest ih =>
    have hrest : rest.length % 2 = 0 := by simp only [List.length_cons] at heven; omega
    rw [List.cons_append, List.cons_append, unpack, unpack, ih hrest]
  | case2 P hshort =>
    match P, hshort with
    | [], _ => rfl
    | [_], _ => simp at heven
    | b0 :: b1 :: rest, hshort => exact (hshort b0 b1 rest rfl).elim

/-! ### The indices as the rules number them (R101) -/

theorem unpack_getD_eq_indexAt {P : List Byte} {j : Nat} (hj : j < 8 * (P.length / 2)) :
    (unpack P).getD j 0 = BitVec.ofNat 8 (indexAt P j) :=
  unpack_getD P j hj

theorem indexAt_lt (P : List Byte) (j : Nat) : indexAt P j < 4 := by
  have hlow : ∀ n, n &&& 1 < 2 := fun n => Nat.lt_succ_of_le Nat.and_le_right
  refine Nat.or_lt_two_pow (n := 2) (Nat.lt_of_lt_of_le (hlow _) (by decide)) ?_
  rw [Nat.shiftLeft_eq]
  exact Nat.mul_lt_mul_of_pos_right (hlow _) (by decide)

theorem byteAt_unpack {P : List Byte} {j : Nat} (hj : j < 8 * (P.length / 2)) : byteAt (unpack P) j = indexAt P j := by
  have h4 := indexAt_lt P j
  rw [byteAt, unpack_getD_eq_indexAt hj, BitVec.toNat_ofNat]
  exact Nat.mod_eq_of_lt (by omega)

/-! ### Expanded pixels (R45, R104) -/

/-- Settles O38: the pixel is the definition of `expand`, and 85 = 64 + 16 + 4 + 1. -/
theorem greyByteRepeatsTheIndexBits : Obligations.GreyByteRepeatsTheIndexBits := by
  intro i _
  exact ⟨rfl, by omega⟩

theorem expandAll_append (u v : List Byte) : expandAll (u ++ v) = expandAll u ++ expandAll v := List.flatMap_append

/-- Four bytes for each index: the first `n` indices make the first `4 * n` bytes. -/
theorem expandAll_take {v : List Byte} {n : Nat} (hn : n ≤ v.length) :
    expandAll (v.take n) = (expandAll v).take (4 * n) := by
  have hlen : (expandAll (v.take n)).length = 4 * n := by rw [expandAll_length, List.length_take_of_le hn]
  conv_rhs => rw [← List.take_append_drop n v, expandAll_append, ← hlen, List.take_left]

/-- The pixels of an expanded buffer are those of its indices. -/
theorem readPixels_expandAll (v : List Byte) : readPixels (expandAll v) = v.map expand := by
  induction v with
  | nil => rfl
  | cons i v ih => rw [List.map_cons, ← ih]; rfl

/-- An expanded buffer is grey, pixel by pixel, as R104 gives it. -/
theorem greyBuffer_expandAll {v : List Byte} {count : Nat} {index : Nat → Nat} (hlen : v.length = count)
    (hindex : ∀ j, j < count → byteAt v j = index j) : greyBuffer (expandAll v) count (fun j => 85 * index j) := by
  refine ⟨by rw [expandAll_length, hlen], fun j hj => ?_⟩
  have hpixel := readPixels_getD (expandAll v) j (expand 0) (by rw [expandAll_length]; omega)
  rw [readPixels_expandAll, List.getD_map] at hpixel
  obtain ⟨hr, hg, hb, ha⟩ := Pixel.mk.inj hpixel
  simp only [← hindex j hj]
  exact ⟨hr.symm, hg.symm, hb.symm, ha.symm⟩

/-- The pixel of an index is an opaque grey of one of the four levels (R105). -/
theorem expand_opaque_grey {i : Byte} (hi : i.toNat ≤ 3) :
    (expand i).r = (expand i).g ∧ (expand i).g = (expand i).b ∧ (expand i).a = 255 ∧
      ((expand i).r = 0 ∨ (expand i).r = 85 ∨ (expand i).r = 170 ∨ (expand i).r = 255) := by
  refine ⟨rfl, rfl, rfl, ?_⟩
  obtain h | h | h | h : i.toNat = 0 ∨ i.toNat = 1 ∨ i.toNat = 2 ∨ i.toNat = 3 := by omega
  all_goals simp [expand, h]

/-! ### Commands that fault (R190) -/

/-- A fault delivers a response alone, so it needs room on RSP alone. -/
theorem exec_ends_in_fault {i : Instr} {s : State} {st : Status} (hacc : s.accepting i.len)
    (hreply : replyFor Config.hardware i (s.payload i.len) = faultReply st) (hrsp : s.rsp.hasRoom 4 = true) :
    exec i s = .next (s.finish i.len (faultReply st)) :=
  exec_completes i s _ hacc hreply rfl ⟨s.dout.hasRoom_zero, s.evt.hasRoom_zero, hrsp⟩

/-! ### UNPACK (R102) -/

/-- Settles O18: UNPACK completes with `unpack` of its payload, which has `8 * (LEN div 2)` indices. -/
theorem unpackInterleavesPlanePairs : Obligations.UnpackInterleavesPlanePairs := by
  refine ⟨fun w3 hlen => decodeFor_unpack (w1 := 0) (w2 := 0) hlen, fun len s hacc hroom => ?_⟩
  have hcount : (unpack (s.payload len)).length = 8 * (len / 2) := by rw [unpack_length, payload_length hacc]
  refine ⟨unpack (s.payload len), hcount, fun j hj => ?_, ?_⟩
  · exact unpack_getD_eq_indexAt (by rwa [payload_length hacc])
  · exact exec_completes (.unpack len) s _ hacc rfl rfl (by rwa [← hcount] at hroom)

/-! ### EXPAND (R106) -/

theorem badIndex_iff_exists_byteAt {P : List Byte} : badIndex P = true ↔ ∃ k, k < P.length ∧ 3 < byteAt P k := by
  rw [badIndex_eq_true]
  constructor
  · rintro ⟨b, hb, hgt⟩
    obtain ⟨k, hk, rfl⟩ := List.mem_iff_getElem.mp hb
    exact ⟨k, hk, by rwa [byteAt, List.getD_eq_getElem _ _ hk]⟩
  · rintro ⟨k, hk, hgt⟩
    rw [byteAt, List.getD_eq_getElem _ _ hk] at hgt
    exact ⟨P[k], List.getElem_mem hk, hgt⟩

theorem expandReply_of_badIndex {P : List Byte} (h : badIndex P = true) (len : Nat) :
    expandReply len P = faultReply .badIndex := if_pos h

theorem expandReply_of_indices {P : List Byte} (h : badIndex P = false) (len : Nat) :
    expandReply len P = okReply 0 0 (4 * len) (expandAll P) [] := if_neg (by simp [h])

/-- Settles O19: EXPAND faults exactly where R106 says, and otherwise completes with the expanded payload. -/
theorem expandWritesGreyPixels : Obligations.ExpandWritesGreyPixels := by
  refine ⟨fun w3 hlen => decodeFor_expand (w1 := 0) (w2 := 0) hlen, fun len s hacc hroom => ?_⟩
  have hlen := payload_length hacc
  have hiff := badIndex_iff_exists_byteAt (P := s.payload len)
  rw [hlen] at hiff
  constructor
  · intro hbad
    obtain ⟨-, -, hrsp⟩ := hroom
    exact exec_ends_in_fault (i := .expand len) hacc (expandReply_of_badIndex (hiff.mpr hbad) len) hrsp
  · intro hle
    have hgood : badIndex (s.payload len) = false := by
      rw [Bool.eq_false_iff, Ne, hiff]
      rintro ⟨k, hk, hgt⟩
      exact hgt.not_ge (hle k hk)
    have hbuffer := greyBuffer_expandAll (v := s.payload len) hlen fun _ _ => rfl
    refine ⟨_, hbuffer, exec_completes (.expand len) s _ hacc (expandReply_of_indices hgood len) rfl ?_⟩
    rwa [← hbuffer.1] at hroom

/-! ### DEC (R107 to R114) -/

/-- The indices that DEC keeps: those of the whole rows of width `w` (R110, R112). -/
def wholeRowIndices (w : Nat) (P : List Byte) : List Byte := (unpack P).take (w * (8 * (P.length / 2) / w))

/-- The whole rows are no more than there are indices. -/
theorem wholeRows_le (w : Nat) (P : List Byte) : w * (8 * (P.length / 2) / w) ≤ (unpack P).length :=
  (Nat.mul_div_le _ _).trans_eq (unpack_length P).symm

theorem wholeRowIndices_length (w : Nat) (P : List Byte) :
    (wholeRowIndices w P).length = w * (8 * (P.length / 2) / w) :=
  List.length_take_of_le (wholeRows_le w P)

theorem toNat_le_of_mem_wholeRowIndices {w : Nat} {P : List Byte} {i : Byte} (hi : i ∈ wholeRowIndices w P) :
    i.toNat ≤ 3 :=
  unpack_mem_le (List.mem_of_mem_take hi)

theorem byteAt_wholeRowIndices {w : Nat} {P : List Byte} {j : Nat} (hj : j < w * (8 * (P.length / 2) / w)) :
    byteAt (wholeRowIndices w P) j = indexAt P j := by
  rw [← byteAt_unpack (hj.trans_le (Nat.mul_div_le _ _))]
  simp [byteAt, wholeRowIndices, List.getD, hj]

/-- DEC faults on a width at or below zero, whatever the payload (R108, R110). -/
theorem decReply_of_nonpos (p : Config.Params) {width : Int} (hw : width ≤ 0) (len : Nat) (P : List Byte) :
    decReply p width len P = faultReply .invalidWidth :=
  if_pos (invalidWidth_eq_true.mpr hw)

/-- DEC of a valid width answers the pixels of the whole rows (R110). -/
theorem decReply_of_pos (p : Config.Params) {w len : Nat} {P : List Byte} (hw : 1 ≤ w) (hlen : P.length = len) :
    decReply p w len P = okReply w (8 * (len / 2) / w) (4 * (w * (8 * (len / 2) / w)))
      (expandAll (wholeRowIndices w P)) [eventRecord p .decodeStart, eventRecord p .decodeDone] := by
  subst hlen
  exact if_neg (by simp [invalidWidth_natCast hw])

theorem decReply_out (p : Config.Params) {w : Nat} (hw : 1 ≤ w) (P : List Byte) :
    (decReply p w P.length P).out = expandAll (wholeRowIndices w P) := by
  rw [decReply_of_pos p hw rfl, okReply_out]

theorem decReply_out_length (p : Config.Params) {w : Nat} (hw : 1 ≤ w) (P : List Byte) :
    (decReply p w P.length P).out.length = 4 * (w * (8 * (P.length / 2) / w)) := by
  rw [decReply_out p hw, expandAll_length, wholeRowIndices_length]

/-- Settles O20: DEC faults on its width alone, and otherwise completes with the pixels of the whole rows. -/
theorem decMakesImageOfDerivedHeight : Obligations.DecMakesImageOfDerivedHeight := by
  refine ⟨fun w1 w3 hlen => decodeFor_dec (w2 := 0) hlen, fun width len s hacc => ⟨?_, ?_⟩⟩
  · rintro hw ⟨-, -, hrsp⟩
    exact exec_ends_in_fault (i := .dec width len) hacc (decReply_of_nonpos _ hw len _) hrsp
  · rintro w rfl hw hroom
    have hlen := payload_length hacc
    have hcount := wholeRowIndices_length w (s.payload len)
    have hindex : ∀ j, j < w * (8 * ((s.payload len).length / 2) / w) →
      byteAt (wholeRowIndices w (s.payload len)) j = indexAt (s.payload len) j := fun _ => byteAt_wholeRowIndices
    rw [hlen] at hcount hindex
    have hbuffer := greyBuffer_expandAll hcount hindex
    refine ⟨_, hbuffer, exec_completes (.dec w len) s _ hacc (decReply_of_pos _ hw hlen) rfl ?_⟩
    rwa [← hbuffer.1] at hroom

/-- Settles O39: what UNPACK writes has no bad index, and four bytes are cut for each index that is cut. -/
theorem decIsUnpackThenExpandCutToRows : Obligations.DecIsUnpackThenExpandCutToRows := by
  intro p w P hw
  have hgood : badIndex (unpackReply P.length P).out = false := badIndex_eq_false.mpr fun _ => unpack_mem_le
  rw [expandReply_of_indices hgood]
  refine ⟨status_of_responseWords (okReply_words _ _ _ _ _), ?_⟩
  rw [decReply_out p hw, wholeRowIndices, expandAll_take (wholeRows_le w P), Nat.mul_assoc]
  rfl

/-- Settles O40: `M = w * (N div w)` is `N` less `N mod w`, and `N` is at most `4 * LEN`. -/
theorem decCountsAndBounds : Obligations.DecCountsAndBounds := by
  intro p w P hw hlen
  have hrows : w * (8 * (P.length / 2) / w) ≤ 8 * (P.length / 2) := Nat.mul_div_le _ _
  rw [decReply_out_length p hw]
  exact ⟨rfl, Nat.mod_eq_sub_mul_div.symm, Nat.mod_lt _ hw, by omega, by omega, Nat.div_le_self _ _, by omega⟩

theorem isPrefix_expandAll {u v : List Byte} (h : u <+: v) : expandAll u <+: expandAll v := by
  obtain ⟨t, rfl⟩ := h
  exact ⟨expandAll t, (expandAll_append u t).symm⟩

/-- Settles O41: every pixel is that of an index of 0 to 3, and for every width DEC keeps the first of the same
indices. -/
theorem decOutputsAreOpaqueGreysAndPrefixes : Obligations.DecOutputsAreOpaqueGreysAndPrefixes := by
  intro p w P hw
  refine ⟨?_, ?_, ?_⟩
  · rw [decReply_out_length p hw, ← Nat.mul_assoc]
    exact Nat.mul_mod_right _ _
  · intro px hpx
    rw [decReply_out p hw, readPixels_expandAll] at hpx
    obtain ⟨i, hi, rfl⟩ := List.mem_map.mp hpx
    exact expand_opaque_grey (toNat_le_of_mem_wholeRowIndices hi)
  · intro w' hw' hle
    rw [decReply_out_length p hw, decReply_out_length p hw'] at hle
    rw [decReply_out p hw, decReply_out p hw']
    exact isPrefix_expandAll (List.take_prefix_take_left (by omega))

end Sys2Proof.Machine
end

section
/-! The encode path (41_encode_path): the values of pixels, the packing of rows, and the three commands QUANT, PACK and
ENC. -/

namespace Sys2Proof.Machine

open Sys2Proof.Rules

/-! ### Quantised values (R131, R132) -/

/-- Settles O43: the value is made of the plane bits of R and G. -/
theorem quantisedValueReadsRedAndGreenOnly : Obligations.QuantisedValueReadsRedAndGreenOnly :=
  fun _ _ _ _ _ _ => ⟨quant_toNat _, rfl⟩

/-- Plane bits do not overlap: R131's `|` is a sum. -/
theorem quantValue_toNat (r g : Byte) : quantValue r.toNat g.toNat = q1 r + 2 * q1 g := by
  have hr := q1_le_one r
  have hg := q1_le_one g
  change q1 r ||| (q1 g <<< 1) = _
  interval_cases q1 r <;> interval_cases q1 g <;> rfl

theorem quant_toNat_eq_quantValue (px : Pixel) : (quant px).toNat = quantValue px.r.toNat px.g.toNat := by
  rw [quant_toNat, quantValue_toNat]

theorem quantAt_le (X : List Byte) (j : Nat) : quantAt X j ≤ 3 := by
  rw [quantAt, byteAt, byteAt, ← quant_toNat_eq_quantValue ⟨_, _, 0, 0⟩]
  exact quant_toNat_le _

/-- The value of pixel `j` of a buffer is the one that R131 gives it, whatever pixel stands past the end. -/
theorem quant_readPixels_toNat {X : List Byte} {j : Nat} (px : Pixel) (hj : j < X.length / 4) :
    (quant ((readPixels X).getD j px)).toNat = quantAt X j := by
  rw [readPixels_getD X j px hj, quant_toNat_eq_quantValue]
  rfl

/-! ### QUANT (R133) -/

theorem quantReply_of_partialPixel {len : Nat} (h : len % 4 ≠ 0) (P : List Byte) :
    quantReply len P = faultReply .badLength :=
  if_pos (by simpa [partialPixel] using h)

theorem quantReply_of_pixels {len : Nat} (h : len % 4 = 0) (P : List Byte) :
    quantReply len P = okReply 0 0 (len / 4) ((readPixels P).map quant) [] :=
  if_neg (by simp [partialPixel_eq_false.mpr h])

theorem map_quant_readPixels_getD {X : List Byte} {j : Nat} (hj : j < X.length / 4) :
    ((readPixels X).map quant).getD j 0 = BitVec.ofNat 8 (quantAt X j) := by
  rw [← quant_syntheticRight, List.getD_map, ← quant_readPixels_toNat syntheticRight hj, BitVec.ofNat_toNat,
    BitVec.setWidth_eq]

/-- Settles O21: QUANT faults on a partial pixel, and otherwise completes with the value of every pixel. -/
theorem quantReducesPixels : Obligations.QuantReducesPixels := by
  refine ⟨fun w3 hlen => decodeFor_quant (w1 := 0) (w2 := 0) hlen, fun len s hacc hroom => ⟨?_, ?_⟩⟩
  · intro hpartial
    obtain ⟨-, -, hrsp⟩ := hroom
    exact exec_ends_in_fault (i := .quant len) hacc (quantReply_of_partialPixel hpartial _) hrsp
  · intro hwhole
    have hlen := payload_length hacc
    have hcount : ((readPixels (s.payload len)).map quant).length = len / 4 := by
      rw [List.length_map, readPixels_length, hlen]
    refine ⟨_, hcount, fun j hj => map_quant_readPixels_getD (by rwa [hlen]), ?_⟩
    exact exec_completes (.quant len) s _ hacc (quantReply_of_pixels hwhole _) rfl (by rwa [← hcount] at hroom)

/-! ### Packed rows (R134 to R138) -/

/-- Column `k` of row `y` is an element of the image. -/
theorem row_major_lt {w h y k : Nat} (hy : y < h) (hk : k < w) : y * w + k < w * h :=
  calc y * w + k < y * w + w := Nat.add_lt_add_left hk _
    _ = w * (y + 1) := by ring
    _ ≤ w * h := Nat.mul_le_mul_left w hy

/-- Rows packed by the model are the packed buffer of R138, when the padding element has the value 0 (R134). -/
theorem packedBuffer_packRows {α : Type} {value : α → Byte} {pad : α} {w h : Nat} {v : List α} {number : Nat → Nat}
    (hpad : value pad = 0) (hv : w * h ≤ v.length)
    (hnumber : ∀ j, j < w * h → (value (v.getD j pad)).toNat = number j) :
    packedBuffer (packRows value pad w h v) number w h := by
  refine ⟨packRows_length value pad w h v hv, fun y c hy hc => ?_⟩
  have hleft : 2 * c < w := by omega
  rw [packRows_getD value pad w h v hv y c hy hc, packByte, packedAt, hnumber _ (row_major_lt hy hleft)]
  split
  case isTrue hright => rw [Nat.add_assoc, hnumber _ (row_major_lt hy hright)]
  case isFalse => rw [hpad]; rfl

/-- Packing values is packing the elements that have them: the padding of R134 has the padding element's value. -/
theorem packRow_map {α : Type} (value : α → Byte) (pad : α) (v : List α) :
    packRow id (value pad) (v.map value) = packRow value pad v := by
  induction v using packRow.induct with
  | case1 left right rest ih => simp only [List.map_cons, packRow, ih, id]
  | case2 left => rfl
  | case3 => rfl

theorem packRows_map {α : Type} (value : α → Byte) (pad : α) (w h : Nat) (v : List α) :
    packRows id (value pad) w h (v.map value) = packRows value pad w h v := by
  induction h generalizing v with
  | zero => rfl
  | succ h ih => rw [packRows, packRows, ← List.map_take, ← List.map_drop, packRow_map, ih]

/-! ### The bits of a packed buffer that are always zero (R145) -/

theorem packedAt_and_eq_zero {value : Nat → Nat} (hvalue : ∀ j, value j ≤ 3) (W y c : Nat) :
    BitVec.ofNat 8 (packedAt value W y c) &&& 0xCC = 0 := by
  have hbits : ∀ l, l ≤ 3 → ∀ r, r ≤ 3 → BitVec.ofNat 8 ((l <<< 4) ||| r) &&& 0xCC = 0 := by decide
  refine hbits _ (hvalue _) _ ?_
  split
  · exact hvalue _
  · exact Nat.zero_le 3

/-- Past the row's end there is no right value (R134). -/
theorem packedAt_last_and_eq_zero {value : Nat → Nat} (hvalue : ∀ j, value j ≤ 3) {W c : Nat} (y : Nat)
    (hlast : W ≤ 2 * c + 1) : BitVec.ofNat 8 (packedAt value W y c) &&& 0x0F = 0 := by
  have hbits : ∀ l, l ≤ 3 → BitVec.ofNat 8 ((l <<< 4) ||| 0) &&& 0x0F = 0 := by decide
  rw [packedAt, if_neg hlast.not_gt]
  exact hbits _ (hvalue _)

/-- Byte `k` of a packed buffer is that of the row and column pair it stands in. -/
theorem packedBuffer_getD {out : List Byte} {value : Nat → Nat} {W H k : Nat} (h : packedBuffer out value W H)
    (hk : k < out.length) :
    out.getD k 0 = BitVec.ofNat 8 (packedAt value W (k / ((W + 1) / 2)) (k % ((W + 1) / 2))) := by
  obtain ⟨hlen, hbyte⟩ := h
  rw [hlen] at hk
  have hrow : 0 < (W + 1) / 2 := Nat.pos_of_mul_pos_left (Nat.zero_lt_of_lt hk)
  rw [← hbyte _ _ ((Nat.div_lt_iff_lt_mul hrow).mpr hk) (Nat.mod_lt k hrow), Nat.div_add_mod']

/-- R145 for every packed buffer of values 0 to 3. -/
theorem packedBuffer_zero_bits {out : List Byte} {value : Nat → Nat} {W H : Nat} (h : packedBuffer out value W H)
    (hvalue : ∀ j, value j ≤ 3) :
    out.length = H * ((W + 1) / 2) ∧ (∀ b, b ∈ out → b &&& 0xCC = 0) ∧
    (W % 2 = 1 → ∀ k, k < out.length → k % ((W + 1) / 2) = (W + 1) / 2 - 1 → out.getD k 0 &&& 0x0F = 0) := by
  refine ⟨h.1, fun b hb => ?_, fun hodd k hk hlast => ?_⟩
  · obtain ⟨k, hk, rfl⟩ := List.mem_iff_getElem.mp hb
    rw [← List.getD_eq_getElem _ 0 hk, packedBuffer_getD h hk]
    exact packedAt_and_eq_zero hvalue _ _ _
  · rw [packedBuffer_getD h hk]
    exact packedAt_last_and_eq_zero hvalue _ (by omega)

/-! ### PACK (R139) -/

theorem packReply_of_nonpos {width : Int} (hw : width ≤ 0) (height len : Nat) (P : List Byte) :
    packReply width height len P = faultReply .invalidWidth :=
  if_pos (invalidWidth_eq_true.mpr hw)

theorem badIndex_eq_false_iff_byteAt {P : List Byte} :
    badIndex P = false ↔ ∀ k, k < P.length → byteAt P k ≤ 3 := by
  rw [Bool.eq_false_iff, Ne, badIndex_iff_exists_byteAt]
  simp only [not_exists, not_and, not_lt]

/-- Past the payload's end `byteAt` reads 0, so that without a bad index it never exceeds 3. -/
theorem byteAt_le_of_badIndex_eq_false {P : List Byte} (h : badIndex P = false) (j : Nat) : byteAt P j ≤ 3 := by
  by_cases hj : j < P.length
  · exact badIndex_eq_false_iff_byteAt.mp h j hj
  · rw [byteAt, List.getD_eq_default _ _ (Nat.le_of_not_lt hj)]
    decide

section Pack
variable {w height len : Nat} {P : List Byte} (hw : 1 ≤ w)
include hw

/-- PACK of a valid width is decided by the payload alone. -/
theorem packReply_of_pos : packReply w height len P =
    if len ≠ w * height then faultReply .badLength
    else if badIndex P then faultReply .badIndex
    else okReply 0 0 (height * ((w + 1) / 2)) (pack P w height) [] := by
  simp [packReply, invalidWidth_natCast hw, wrongShape, rowBytes]

theorem packReply_of_wrongShape (hlen : len ≠ w * height) : packReply w height len P = faultReply .badLength := by
  rw [packReply_of_pos hw, if_pos hlen]

theorem packReply_of_badIndex (hlen : len = w * height) (hbad : badIndex P = true) :
    packReply w height len P = faultReply .badIndex := by
  rw [packReply_of_pos hw, if_neg (not_not.mpr hlen), if_pos hbad]

theorem packReply_of_indices (hlen : len = w * height) (hgood : badIndex P = false) :
    packReply w height len P = okReply 0 0 (height * ((w + 1) / 2)) (pack P w height) [] := by
  rw [packReply_of_pos hw, if_neg (not_not.mpr hlen), hgood]
  rfl

end Pack

theorem packedBuffer_pack {P : List Byte} {w height : Nat} (hlen : P.length = w * height) :
    packedBuffer (pack P w height) (byteAt P) w height :=
  packedBuffer_packRows rfl hlen.ge fun _ _ => rfl

/-- Settles O22: PACK faults in the order of R188, and otherwise completes with the packed rows. -/
theorem packPairsValuesByRows : Obligations.PackPairsValuesByRows := by
  refine ⟨fun w1 w2 w3 hlen => decodeFor_pack hlen, fun width height len s hacc => ⟨?_, ?_⟩⟩
  · rintro hw ⟨-, -, hrsp⟩
    exact exec_ends_in_fault (i := .pack width height len) hacc (packReply_of_nonpos hw _ _ _) hrsp
  rintro w rfl hw
  have hlen := payload_length hacc
  refine ⟨?_, ?_, ?_⟩
  · rintro hshape ⟨-, -, hrsp⟩
    exact exec_ends_in_fault (i := .pack w height len) hacc (packReply_of_wrongShape hw hshape) hrsp
  · rintro hshape hbad ⟨-, -, hrsp⟩
    have hindex : badIndex (s.payload len) = true := badIndex_iff_exists_byteAt.mpr (by rwa [hlen])
    exact exec_ends_in_fault (i := .pack w height len) hacc (packReply_of_badIndex hw hshape hindex) hrsp
  · intro hshape hle hroom
    have hgood : badIndex (s.payload len) = false := badIndex_eq_false_iff_byteAt.mpr (by rwa [hlen])
    have hbuffer := packedBuffer_pack (hlen.trans hshape)
    refine ⟨_, hbuffer, exec_completes (.pack w height len) s _ hacc (packReply_of_indices hw hshape hgood) rfl ?_⟩
    rwa [← hbuffer.1] at hroom

/-! ### ENC (R142) -/

theorem encReply_of_nonpos (p : Config.Params) {width : Int} (hw : width ≤ 0) (height len : Nat) (P : List Byte) :
    encReply p width height len P = faultReply .invalidWidth :=
  if_pos (invalidWidth_eq_true.mpr hw)

section Enc
variable (p : Config.Params) {w height len : Nat} {X : List Byte} (hw : 1 ≤ w)
include hw

/-- ENC of a valid width is decided by the length of the payload alone. -/
theorem encReply_of_pos : encReply p w height len X =
    if len ≠ 4 * w * height then faultReply .badLength
    else okReply 0 0 (height * ((w + 1) / 2)) (packRows quant syntheticRight w height (readPixels X))
      [eventRecord p .encodeDone] := by
  simp [encReply, invalidWidth_natCast hw, wrongShape, rowBytes]

theorem encReply_of_wrongShape (hlen : len ≠ 4 * w * height) : encReply p w height len X = faultReply .badLength := by
  rw [encReply_of_pos p hw, if_pos hlen]

theorem encReply_of_shape (hlen : len = 4 * w * height) :
    encReply p w height len X = okReply 0 0 (height * ((w + 1) / 2))
      (packRows quant syntheticRight w height (readPixels X)) [eventRecord p .encodeDone] := by
  rw [encReply_of_pos p hw, if_neg (not_not.mpr hlen)]

end Enc

/-- An image of `w` by `height` pixels has so many pixels (R45). -/
theorem readPixels_length_of_shape {X : List Byte} {w height : Nat} (hlen : X.length = 4 * w * height) :
    (readPixels X).length = w * height := by
  rw [readPixels_length, hlen, Nat.mul_assoc, Nat.mul_div_cancel_left _ (by decide)]

theorem packedBuffer_enc {X : List Byte} {w height : Nat} (hlen : X.length = 4 * w * height) :
    packedBuffer (packRows quant syntheticRight w height (readPixels X)) (quantAt X) w height := by
  have hcount := readPixels_length_of_shape hlen
  refine packedBuffer_packRows quant_syntheticRight hcount.ge fun j hj => quant_readPixels_toNat _ ?_
  rwa [← readPixels_length, hcount]

/-- Settles O23: ENC faults in the order of R188, and otherwise completes with the packed rows of quantised pixels. -/
theorem encPacksQuantisedRows : Obligations.EncPacksQuantisedRows := by
  refine ⟨fun w1 w2 w3 hlen => decodeFor_enc hlen, fun width height len s hacc => ⟨?_, ?_⟩⟩
  · rintro hw ⟨-, -, hrsp⟩
    exact exec_ends_in_fault (i := .enc width height len) hacc (encReply_of_nonpos _ hw _ _ _) hrsp
  rintro w rfl hw
  refine ⟨?_, ?_⟩
  · rintro hshape ⟨-, -, hrsp⟩
    exact exec_ends_in_fault (i := .enc w height len) hacc (encReply_of_wrongShape _ hw hshape) hrsp
  · intro hshape hroom
    have hbuffer := packedBuffer_enc ((payload_length hacc).trans hshape)
    refine ⟨_, hbuffer, exec_completes (.enc w height len) s _ hacc (encReply_of_shape _ hw hshape) rfl ?_⟩
    rwa [← hbuffer.1] at hroom

/-! ### Laws of the encode path (R143, R145) -/

/-- Settles O44: every value QUANT writes is 0 to 3, and the padding value 0 is the synthetic right pixel's. -/
theorem encIsQuantThenPack : Obligations.EncIsQuantThenPack := by
  intro p w h X hw hlen
  have hwhole : X.length % 4 = 0 := by rw [hlen, Nat.mul_assoc]; exact Nat.mul_mod_right _ _
  have hcount : ((readPixels X).map quant).length = w * h := by
    rw [List.length_map, readPixels_length_of_shape hlen]
  have hgood : badIndex ((readPixels X).map quant) = false := by
    rw [badIndex_eq_false, List.forall_mem_map]
    exact fun px _ => quant_toNat_le px
  rw [quantReply_of_pixels hwhole, okReply_out, packReply_of_indices hw hcount hgood, encReply_of_shape p hw hlen]
  refine ⟨status_of_responseWords (okReply_words _ _ _ _ _), ?_⟩
  rw [okReply_out, okReply_out, pack, ← quant_syntheticRight, packRows_map]

theorem faultReply_status_ne_zero {st : Status} (h : st ≠ .ok) : (faultReply st).status ≠ 0 := by
  rw [status_of_responseWords (faultReply_words st)]
  cases st
  case ok => exact absurd rfl h
  all_goals decide

/-- PACK that ends with OK has written a packed buffer of values 0 to 3. -/
theorem packedBuffer_of_packReply_ok {w h : Nat} {P : List Byte} (hok : (packReply w h P.length P).status = 0) :
    packedBuffer (packReply w h P.length P).out (byteAt P) w h ∧ ∀ j, byteAt P j ≤ 3 := by
  obtain rfl | hw := Nat.eq_zero_or_pos w
  · rw [packReply_of_nonpos (Int.natCast_nonpos_iff.mpr rfl)] at hok
    exact absurd hok (faultReply_status_ne_zero nofun)
  by_cases hlen : P.length = w * h
  case neg =>
    rw [packReply_of_wrongShape hw hlen] at hok
    exact absurd hok (faultReply_status_ne_zero nofun)
  cases hindex : badIndex P with
  | true =>
    rw [packReply_of_badIndex hw hlen hindex] at hok
    exact absurd hok (faultReply_status_ne_zero nofun)
  | false =>
    rw [packReply_of_indices hw hlen hindex]
    exact ⟨packedBuffer_pack hlen, byteAt_le_of_badIndex_eq_false hindex⟩

/-- ENC that ends with OK has written the packed buffer of the quantised pixels. -/
theorem packedBuffer_of_encReply_ok {p : Config.Params} {w h : Nat} {X : List Byte}
    (hok : (encReply p w h X.length X).status = 0) :
    packedBuffer (encReply p w h X.length X).out (quantAt X) w h := by
  obtain rfl | hw := Nat.eq_zero_or_pos w
  · rw [encReply_of_nonpos p (Int.natCast_nonpos_iff.mpr rfl)] at hok
    exact absurd hok (faultReply_status_ne_zero nofun)
  by_cases hlen : X.length = 4 * w * h
  case neg =>
    rw [encReply_of_wrongShape p hw hlen] at hok
    exact absurd hok (faultReply_status_ne_zero nofun)
  rw [encReply_of_shape p hw hlen]
  exact packedBuffer_enc hlen

/-- Settles O45: what ends with OK is a packed buffer of values 0 to 3. -/
theorem packedOutputsKeepTheirZeroBits : Obligations.PackedOutputsKeepTheirZeroBits := by
  rintro p w h len P r (rfl | rfl) rfl hok
  · obtain ⟨hbuffer, hvalue⟩ := packedBuffer_of_packReply_ok hok
    exact packedBuffer_zero_bits hbuffer hvalue
  · exact packedBuffer_zero_bits (packedBuffer_of_encReply_ok hok) (quantAt_le P)

end Sys2Proof.Machine
end

section
/-! The two directions composed (42_roundtrip_laws): what DEC and then ENC make of a buffer, how long that is, and the
round trip as two commands of the machine. -/

namespace Sys2Proof.Machine

open Sys2Proof.Rules

/-! ### Expansion followed by quantisation (R163) -/

/-- A quantised grey has its one plane bit twice (R131). -/
theorem quant_expand_toNat_eq_q1 (i : Byte) : (quant (expand i)).toNat = 3 * q1 (expand i).r := by
  have hgrey : (expand i).g = (expand i).r := rfl
  rw [quant_toNat, hgrey]
  omega

/-- The plane bit of a grey level is bit 0 of its index (R131): 85 goes into it as often as the index says. -/
theorem q1_expand {i : Byte} (hi : i.toNat ≤ 3) : q1 (expand i).r = i.toNat &&& 1 := by
  have hlevel : (expand i).r.toNat = 85 * i.toNat := Nat.mod_eq_of_lt (by omega)
  rw [q1, hlevel, Nat.mul_div_cancel_left _ (by decide)]

/-- Settles O46: both channels of the grey pixel have the index's bit 0 as plane bit. -/
theorem quantOfExpandCopiesBitZero : Obligations.QuantOfExpandCopiesBitZero := by
  intro i hi
  rw [quant_expand_toNat_eq_q1, q1_expand hi]

/-! ### The values that are packed (R165) -/

/-- Plane 1 stands at bit 1 of an index, so bit 0 is plane 0's (R101). -/
theorem indexAt_and_one (P : List Byte) (j : Nat) : indexAt P j &&& 1 = planeZero P j := by
  rw [indexAt, Nat.and_or_distrib_right, Nat.and_one_is_mod (_ <<< 1), Nat.shiftLeft_eq, Nat.pow_one, Nat.mul_mod_left,
    Nat.or_zero, Nat.and_assoc, Nat.and_self]
  rfl

theorem planeZero_le_one (P : List Byte) (j : Nat) : planeZero P j ≤ 1 := Nat.and_le_right

/-- The values `3 * a[j]` of R165, for the pixels of the whole rows. -/
def tripledPlaneZero (P : List Byte) (w : Nat) : List Byte :=
  (List.range (w * roundTripHeight P w)).map fun j => BitVec.ofNat 8 (3 * planeZero P j)

theorem tripledPlaneZero_length (P : List Byte) (w : Nat) :
    (tripledPlaneZero P w).length = w * roundTripHeight P w := by
  rw [tripledPlaneZero, List.length_map, List.length_range]

theorem byteAt_tripledPlaneZero {P : List Byte} {w j : Nat} (hj : j < w * roundTripHeight P w) :
    byteAt (tripledPlaneZero P w) j = 3 * planeZero P j := by
  have hbit := planeZero_le_one P j
  rw [byteAt, List.getD_eq_getElem _ _ (by rwa [tripledPlaneZero_length])]
  simp only [tripledPlaneZero, List.getElem_map, List.getElem_range, BitVec.toNat_ofNat]
  omega

/-- Quantised, the pixels that DEC makes of a buffer are its plane-0 bits, tripled. -/
theorem map_quant_expand_wholeRowIndices (P : List Byte) (w : Nat) :
    (wholeRowIndices w P).map (fun i => quant (expand i)) = tripledPlaneZero P w := by
  have hlen : ((wholeRowIndices w P).map fun i => quant (expand i)).length = (tripledPlaneZero P w).length := by
    rw [List.length_map, wholeRowIndices_length, tripledPlaneZero_length, roundTripHeight]
  refine List.ext_getElem hlen fun j h₁ h₂ => BitVec.eq_of_toNat_eq ?_
  have hj : j < w * roundTripHeight P w := by rwa [tripledPlaneZero_length] at h₂
  have hk : j < (wholeRowIndices w P).length := by rwa [List.length_map] at h₁
  have hindex : (wholeRowIndices w P)[j].toNat = indexAt P j := by
    rw [← byteAt_wholeRowIndices hj, byteAt, List.getD_eq_getElem _ _ hk]
  calc _ = (quant (expand (wholeRowIndices w P)[j])).toNat := by rw [List.getElem_map]
    _ = 3 * ((wholeRowIndices w P)[j].toNat &&& 1) :=
      quantOfExpandCopiesBitZero _ (toNat_le_of_mem_wholeRowIndices (List.getElem_mem hk))
    _ = 3 * planeZero P j := by rw [hindex, indexAt_and_one]
    _ = (tripledPlaneZero P w)[j].toNat := by
      rw [← byteAt_tripledPlaneZero hj, byteAt, List.getD_eq_getElem _ _ h₂]

/-- Two buffers with as many pairs and the same plane-0 bytes give the same values. -/
theorem tripledPlaneZero_congr {P Q : List Byte} (w : Nat) (hpairs : Q.length / 2 = P.length / 2)
    (hplane : ∀ k, k < P.length / 2 → byteAt Q (2 * k) = byteAt P (2 * k)) :
    tripledPlaneZero Q w = tripledPlaneZero P w := by
  rw [tripledPlaneZero, tripledPlaneZero, roundTripHeight, roundTripHeight, hpairs]
  refine List.map_congr_left fun j hj => ?_
  have hcount : w * (8 * (P.length / 2) / w) ≤ 8 * (P.length / 2) := Nat.mul_div_le _ _
  have hpair : j / 8 < P.length / 2 := by rw [List.mem_range] at hj; omega
  rw [planeZero, planeZero, hplane _ hpair]

/-! ### The result of the round trip (R164, R165) -/

section RoundTrip
variable {w : Nat} (hw : 1 ≤ w) (P : List Byte)
include hw

theorem roundTripImage_eq : roundTripImage P w = expandAll (wholeRowIndices w P) := decReply_out _ hw P

theorem roundTripImage_length : (roundTripImage P w).length = 4 * (w * roundTripHeight P w) :=
  decReply_out_length _ hw P

/-- The image has the shape it is encoded with, so that ENC ends with OK. -/
theorem roundTrip_eq_okReply :
    roundTrip P w = okReply 0 0 (roundTripHeight P w * ((w + 1) / 2))
      (pack (tripledPlaneZero P w) w (roundTripHeight P w)) [eventRecord Config.hardware .encodeDone] := by
  rw [roundTrip, encReply_of_shape _ hw (by rw [roundTripImage_length hw, Nat.mul_assoc]), roundTripImage_eq hw,
    readPixels_expandAll, ← packRows_map, quant_syntheticRight, List.map_map, ← map_quant_expand_wholeRowIndices]
  rfl

theorem roundTrip_out : (roundTrip P w).out = pack (tripledPlaneZero P w) w (roundTripHeight P w) := by
  rw [roundTrip_eq_okReply hw, okReply_out]

theorem packedBuffer_roundTrip :
    packedBuffer (roundTrip P w).out (byteAt (tripledPlaneZero P w)) w (roundTripHeight P w) := by
  rw [roundTrip_out hw]
  exact packedBuffer_pack (tripledPlaneZero_length P w)

theorem roundTrip_out_length : (roundTrip P w).out.length = roundTripHeight P w * ((w + 1) / 2) := by
  obtain ⟨hlen, -⟩ := packedBuffer_roundTrip hw P
  exact hlen

end RoundTrip

/-- Settles O47: ENC packs the tripled plane-0 bits, which are all that the result is made of. -/
theorem roundTripDependsOnPlaneZeroAlone : Obligations.RoundTripDependsOnPlaneZeroAlone := by
  intro P w hw
  refine ⟨?_, roundTrip_out hw P, fun Q hpairs hplane => ?_⟩
  · rw [roundTrip_eq_okReply hw]
    exact status_of_responseWords (okReply_words _ _ _ _ _)
  · rw [roundTrip_out hw, roundTrip_out hw, tripledPlaneZero_congr w hpairs hplane, roundTripHeight, roundTripHeight,
      hpairs]

/-! ### Even widths (R166) -/

/-- Rows of even width are packed without a gap: byte `m` holds the values `2m` and `2m + 1`. -/
theorem packedAt_of_even_width (value : Nat → Nat) {W : Nat} (hW : 1 ≤ W) (heven : W % 2 = 0) (m : Nat) :
    packedAt value W (m / ((W + 1) / 2)) (m % ((W + 1) / 2)) = (value (2 * m) <<< 4) ||| value (2 * m + 1) := by
  obtain ⟨k, rfl⟩ : ∃ k, W = 2 * k := ⟨W / 2, by omega⟩
  have hrow : (2 * k + 1) / 2 = k := by omega
  have hcolumn : m % k < k := Nat.mod_lt m (by omega)
  have hplace : m / k * (2 * k) + 2 * (m % k) = 2 * m := by
    calc m / k * (2 * k) + 2 * (m % k) = 2 * (m / k * k + m % k) := by ring
      _ = 2 * m := by rw [Nat.div_add_mod']
  rw [hrow, packedAt, if_pos (by omega), hplace]

theorem mul_half_of_even {w : Nat} (heven : w % 2 = 0) (h : Nat) : h * ((w + 1) / 2) = w * h / 2 := by
  obtain ⟨k, rfl⟩ : ∃ k, w = 2 * k := ⟨w / 2, by omega⟩
  have hrow : (2 * k + 1) / 2 = k := by omega
  rw [hrow, Nat.mul_assoc, Nat.mul_div_cancel_left _ (by decide), Nat.mul_comm]

/-- Settles O48: without padding, byte `m` packs the tripled bits of pixels `2m` and `2m + 1`. -/
theorem roundTripClosedFormForEvenWidth : Obligations.RoundTripClosedFormForEvenWidth := by
  intro P w hw heven
  have hlen := roundTrip_out_length hw P
  rw [mul_half_of_even heven] at hlen
  refine ⟨hlen, fun m hm => ?_⟩
  have hbyte : ∀ a, a ≤ 1 → ∀ b, b ≤ 1 →
      (BitVec.ofNat 8 (((3 * a) <<< 4) ||| (3 * b))).toNat = 0x30 * a + 0x03 * b := by decide
  rw [byteAt, packedBuffer_getD (packedBuffer_roundTrip hw P) (by rwa [hlen]), packedAt_of_even_width _ hw heven,
    byteAt_tripledPlaneZero (by omega), byteAt_tripledPlaneZero (by omega)]
  exact hbyte _ (planeZero_le_one _ _) _ (planeZero_le_one _ _)

/-! ### The length of the result (R168) -/

/-- Every row of odd width has half a byte of padding. -/
theorem mul_half_of_odd {w : Nat} (hodd : w % 2 = 1) (h : Nat) : h * ((w + 1) / 2) = (w * h + h) / 2 := by
  obtain ⟨k, rfl⟩ : ∃ k, w = 2 * k + 1 := ⟨w / 2, by omega⟩
  have hrow : (2 * k + 1 + 1) / 2 = k + 1 := by omega
  have hcount : (2 * k + 1) * h + h = 2 * (h * (k + 1)) := by ring
  rw [hrow, hcount, Nat.mul_div_cancel_left _ (by decide)]

/-- An even number of pixels, in rows of odd width, makes at least two rows. -/
theorem two_le_height_of_odd {w h n : Nat} (hodd : w % 2 = 1) (hn : 1 ≤ n) (hcount : w * h = 8 * n) : 2 ≤ h := by
  have hpos : h ≠ 0 := by rintro rfl; omega
  have hne : h ≠ 1 := by rintro rfl; omega
  omega

/-- Settles O49: four pixels of a plane pair's eight fill a byte each two, and padding can only add to that. -/
theorem roundTripOfWholeBufferIsLonger : Obligations.RoundTripOfWholeBufferIsLonger := by
  intro P w n hn hP hw hwhole
  have hlen := roundTrip_out_length hw P
  have hheight : roundTripHeight P w = 8 * n / w := by
    rw [roundTripHeight, hP, Nat.mul_div_cancel_left _ (by decide)]
  have hcount : w * (8 * n / w) = 8 * n := Nat.mul_div_cancel' (Nat.dvd_of_mod_eq_zero hwhole)
  rw [hheight] at hlen
  have hevenLen : w % 2 = 0 → (roundTrip P w).out.length = 2 * P.length := by
    intro heven
    rw [hlen, mul_half_of_even heven, hcount]
    omega
  have hoddLen : w % 2 = 1 → (roundTrip P w).out.length = (8 * n + 8 * n / w) / 2 ∧
      2 * P.length < (roundTrip P w).out.length := by
    intro hodd
    have hrows := two_le_height_of_odd hodd hn hcount
    rw [hlen, mul_half_of_odd hodd, hcount]
    exact ⟨rfl, by omega⟩
  refine ⟨hlen, hevenLen, hoddLen, fun heq => ?_⟩
  have hsame := congrArg List.length heq
  obtain heven | hodd := Nat.mod_two_eq_zero_or_one w
  · have hlonger := hevenLen heven
    omega
  · obtain ⟨-, hlonger⟩ := hoddLen hodd
    omega

/-! ### Worked cases (R167, R169, R170) -/

/-- Without a plane pair there is no row (R169). -/
theorem roundTrip_nil_out {w : Nat} (hw : 1 ≤ w) : (roundTrip [] w).out = [] := by
  have hheight : roundTripHeight [] w = 0 := Nat.zero_div w
  rw [roundTrip_out hw, hheight]
  rfl

/-- Settles O50: the worked cases by computing them, the empty buffer because it has no rows. -/
theorem directionsAreNotInverse : Obligations.DirectionsAreNotInverse :=
  ⟨by decide, by decide, by decide, by decide, by decide, fun _ => roundTrip_nil_out⟩

/-! ### The round trip as two commands (R164, R221) -/

/-- Room that is left once some of it has been used. -/
theorem Channel.hasRoom_put {α : Type} (c : Channel α) {xs : List α} {n : Nat} (h : c.hasRoom (xs.length + n) = true) :
    (c.put xs).hasRoom n = true := by
  simp only [Channel.hasRoom, Channel.accepts, beq_iff_eq, Channel.put_capacity, Channel.put_items,
    List.length_append] at h ⊢
  split at h
  · rfl
  · omega

theorem decode_encode {i : Instr} (hi : i.wellFormed = true) : decode (encode i) = .command i :=
  encodedCommandDecodesToItself Config.hardware i hi

theorem widthInRange_natCast {w : Nat} (hw : w ≤ 2147483647) : widthInRange w = true := by
  simp only [widthInRange, Bool.and_eq_true, decide_eq_true_eq]
  omega

theorem lenInRange_hardware {len : Nat} (hlen : len ≤ 268435455) : lenInRange Config.hardware len = true := by
  have hword : len ≤ 4294967295 := by omega
  simp [lenInRange, Config.hardware, hlen, hword]

/-- A core with nothing to do and nothing on its input channels, RST released. -/
structure State.Quiet (s : State) : Prop where
  core : s.core = .idle
  rst : s.rst = false
  cmd : s.cmd = []
  din : s.din = []

theorem State.Quiet.finish {s : State} (hs : s.Quiet) (r : Reply) : (s.finish 0 r).Quiet :=
  ⟨rfl, hs.rst, hs.cmd, by simp [State.finish, hs.din]⟩

/-- A command issued to a quiet core is all there is on its input channels. -/
theorem hostIssue_of_quiet {s : State} (hs : s.Quiet) (c : Command) :
    s.hostIssue c = { s with cmd := c.desc.words, din := c.payload.map (placedFor s.serial) } := by
  obtain ⟨hcore, -, hcmd, hdin⟩ := hs
  simp [State.hostIssue, State.hostPlacePayload, State.hostPlaceWords, State.nextSerial, State.withCmd, State.withDin,
    hcore, hcmd, hdin]

/-- A payload placed for the command in flight is ready, and read as it was placed (R219). -/
theorem payloadReady_of_placedFor {s : State} {P : List Byte} (hdin : s.din = P.map (placedFor s.serial)) :
    s.payloadReady P.length ∧ s.nextBytes P.length = P := by
  have hall : s.din.take P.length = s.din := List.take_of_length_le (by simp [hdin])
  refine ⟨⟨by simp [hdin], ownsBytes_iff.mpr fun b hb => ?_⟩, ?_⟩
  · rw [hall, hdin] at hb
    obtain ⟨c, -, rfl⟩ := List.mem_map.mp hb
    exact placedFor_serial _ _
  · simp [State.nextBytes, hdin, Function.comp_def]

/-- A command issued to a quiet core with room for its answer is answered in one step. -/
theorem step_hostIssue_of_quiet {s : State} {i : Instr} {P : List Byte} {r : Reply} (hs : s.Quiet)
    (hi : i.wellFormed = true) (hP : P.length = i.len) (hr : replyFor Config.hardware i P = r)
    (hroom : s.hasRoomFor r.out.length r.events.length) :
    step (s.hostIssue ⟨encode i, P⟩) = .next (s.finish 0 r) := by
  have hdecode := decode_encode hi
  have hlen : (encode i).len = P.length := by rw [hP, decode_len hdecode]
  have hissued := hostIssue_of_quiet hs ⟨encode i, P⟩
  have hcmd : (s.hostIssue ⟨encode i, P⟩).cmd = (encode i).words ++ [] := by rw [hissued, List.append_nil]
  obtain ⟨hready, hbytes⟩ := payloadReady_of_placedFor (s := s.hostIssue ⟨encode i, P⟩) (P := P) (by rw [hissued])
  rw [← hlen] at hready hbytes
  have hanswer : answer (encode i) ((s.hostIssue ⟨encode i, P⟩).nextBytes (encode i).len) = some r := by
    simp [hbytes, answer, hdecode, hr]
  rw [commandIsOneStepFromIdleToIdle (s.hostIssue ⟨encode i, P⟩) (encode i) [] r hs.rst hs.core hcmd hready hanswer
    hroom, hissued]
  simp [State.finish, hlen, hs.core, hs.cmd, hs.din]

/-- What DEC answers, in the terms of R164. -/
theorem decReply_eq_roundTripImage {w : Nat} (hw : 1 ≤ w) (P : List Byte) :
    decReply Config.hardware w P.length P = ⟨roundTripImage P w, [0x0001, 0x6402],
      [0, BitVec.ofNat 32 w, BitVec.ofNat 32 (roundTripHeight P w), BitVec.ofNat 32 (roundTripImage P w).length]⟩ := by
  rw [decReply_of_pos _ hw rfl, roundTripImage_length hw, roundTripImage_eq hw]
  rfl

/-- What ENC answers to the image, in the terms of R164. -/
theorem roundTrip_eq {w : Nat} (hw : 1 ≤ w) (P : List Byte) :
    roundTrip P w = ⟨(roundTrip P w).out, [0x6403], [0, 0, 0, BitVec.ofNat 32 (roundTrip P w).out.length]⟩ := by
  rw [roundTrip_out_length hw, roundTrip_eq_okReply hw]
  rfl

/-- Settles O51: each of the two is well formed and issued to a quiet core, and DEC takes no room that ENC needs. -/
theorem roundTripIsTwoCommands : Obligations.RoundTripIsTwoCommands := by
  intro s P w hcore hrst hcmd hdin hroom hrsp hw hwidth hlen himage
  have hs : s.Quiet := ⟨hcore, hrst, hcmd, hdin⟩
  have hheight : heightInRange (roundTripHeight P w) = true := by
    have hrows : roundTripHeight P w ≤ 8 * (P.length / 2) := Nat.div_le_self _ _
    exact decide_eq_true (by omega)
  have hdec : (Instr.dec w P.length).wellFormed = true := by
    simp [Instr.wellFormed, Instr.wellFormedFor, widthInRange_natCast hwidth, lenInRange_hardware hlen]
  have henc : (Instr.enc w (roundTripHeight P w) (roundTripImage P w).length).wellFormed = true := by
    simp [Instr.wellFormed, Instr.wellFormedFor, widthInRange_natCast hwidth, hheight, lenInRange_hardware himage]
  refine ⟨_, _, step_hostIssue_of_quiet hs hdec rfl (decReply_eq_roundTripImage hw P) (hroom _ _), rfl,
    step_hostIssue_of_quiet (hs.finish _) henc rfl (roundTrip_eq hw P) ⟨?_, ?_, ?_⟩, rfl⟩
  · exact s.dout.hasRoom_put (hroom _ 0).1
  · exact s.evt.hasRoom_put (hroom 0 _).2.1
  · exact s.rsp.hasRoom_put hrsp

end Sys2Proof.Machine
end

section
/-! The exceptions (60_exceptions): which cause decides a command's status, what a fault leaves behind, and the events of
the commands that end with OK. -/

namespace Sys2Proof.Machine

open Sys2Proof.Rules
open Sys2Proof.Laws.DescriptorFields (opcode len_word)

/-! ### The causes of a fault, command by command (R182, R184, R185) -/

/-- The cause of INVALID_WIDTH (R182). -/
def widthFault : Instr → Bool
  | .dec width _ => invalidWidth width
  | .pack width _ _ => invalidWidth width
  | .enc width _ _ => invalidWidth width
  | _ => false

/-- The cause of BAD_LENGTH, of a command whose width is no fault (R184). -/
def lengthFault : Instr → Bool
  | .quant len => partialPixel len
  | .pack width height len => wrongShape 1 width.toNat height len
  | .enc width height len => wrongShape 4 width.toNat height len
  | _ => false

/-- The cause of BAD_INDEX (R185). -/
def indexFault (P : List Byte) : Instr → Bool
  | .expand _ => badIndex P
  | .pack _ _ _ => badIndex P
  | _ => false

/-- The status of a command, by the first cause that applies in the order of R188. -/
def outcome (i : Instr) (P : List Byte) : Status :=
  if widthFault i then .invalidWidth
  else if lengthFault i then .badLength
  else if indexFault P i then .badIndex
  else .ok

/-- What a command that ends with OK announces, in order (R196). -/
def milestones : Instr → List Milestone
  | .dec _ _ => [.decodeStart, .decodeDone]
  | .enc _ _ _ => [.encodeDone]
  | _ => []

theorem Status.code_eq_zero_iff {st : Status} : st.code = 0 ↔ st = .ok := by
  cases st <;> simp [Status.code]

/-! ### What a command answers, by its outcome (R188, R190, R196) -/

/-- `r` is an answer with status `st`: the fault outcome, or for OK an answer with the events of the milestones `ms`. -/
def Reply.Ends (p : Config.Params) (ms : List Milestone) (st : Status) (r : Reply) : Prop :=
  (st ≠ .ok ∧ r = faultReply st) ∨
  (st = .ok ∧ ∃ ow oh olen out, r = okReply ow oh olen out (ms.map (eventRecord p)))

theorem faultReply_ends (p : Config.Params) (ms : List Milestone) {st : Status} (h : st ≠ .ok) :
    (faultReply st).Ends p ms st := .inl ⟨h, rfl⟩

theorem okReply_ends (p : Config.Params) (ms : List Milestone) (ow oh olen : Nat) (out : List Byte) :
    (okReply ow oh olen out (ms.map (eventRecord p))).Ends p ms .ok := .inr ⟨rfl, ow, oh, olen, out, rfl⟩

/-- A test for a cause that comes before all others. -/
theorem Reply.Ends.ite {p : Config.Params} {ms : List Milestone} {cause : Bool} {st₁ st₂ : Status} {r : Reply}
    (hst : st₁ ≠ .ok) (h : r.Ends p ms st₂) :
    (if cause then faultReply st₁ else r).Ends p ms (if cause then st₁ else st₂) := by
  cases cause
  case false => exact h
  case true => exact faultReply_ends p ms hst

/-- Every command tests for its causes in the order of R188. -/
theorem replyFor_ends (p : Config.Params) (i : Instr) (P : List Byte) :
    (replyFor p i P).Ends p (milestones i) (outcome i P) := by
  cases i with
  | unpack len => exact okReply_ends p [] _ _ _ _
  | expand len => exact .ite (cause := badIndex P) nofun (okReply_ends p [] _ _ _ _)
  | dec width len =>
    exact .ite (cause := invalidWidth width) nofun (okReply_ends p [.decodeStart, .decodeDone] _ _ _ _)
  | quant len => exact .ite (cause := partialPixel len) nofun (okReply_ends p [] _ _ _ _)
  | pack width height len => exact .ite nofun (.ite nofun (.ite nofun (okReply_ends p [] _ _ _ _)))
  | enc width height len => exact .ite nofun (.ite nofun (okReply_ends p [.encodeDone] _ _ _ _))

section
variable {p : Config.Params} {ms : List Milestone} {st : Status} {r : Reply} (h : r.Ends p ms st)
include h

theorem Reply.Ends.status : r.status = st.code := by
  obtain ⟨-, rfl⟩ | ⟨rfl, ow, oh, olen, out, rfl⟩ := h
  · exact faultReply_status st
  · exact status_of_responseWords (okReply_words ow oh olen out _)

theorem Reply.Ends.eq_faultReply (hst : r.status ≠ 0) : r = faultReply st := by
  rw [h.status, Ne, Status.code_eq_zero_iff] at hst
  obtain ⟨-, hr⟩ | ⟨hok, -⟩ := h
  · exact hr
  · exact absurd hok hst

theorem Reply.Ends.events_of_ok (hst : r.status = 0) : r.events = ms.map (eventRecord p) := by
  rw [h.status, Status.code_eq_zero_iff] at hst
  obtain ⟨hne, -⟩ | ⟨-, ow, oh, olen, out, rfl⟩ := h
  · exact absurd hst hne
  · rfl

end

/-! ### The causes as the descriptor's words show them (R182, R184, R185) -/

theorem encode_w0_toNat (i : Instr) : (encode i).w0.toNat = opcode i := by
  cases i <;> rfl

/-- A width at or below zero is a `W1` that is 0 or has its sign bit set (R182). -/
theorem hasBadWidth_ofInt_iff {w0 w2 w3 : Word} {width : Int} (hop : w0.toNat = 3 ∨ w0.toNat = 5 ∨ w0.toNat = 6)
    (hwidth : widthInRange width = true) :
    hasBadWidth ⟨w0, BitVec.ofInt 32 width, w2, w3⟩ ↔ invalidWidth width = true := by
  simp only [widthInRange, Bool.and_eq_true, decide_eq_true_eq] at hwidth
  rw [hasBadWidth, and_iff_right hop, invalidWidth_eq_true, BitVec.toNat_ofInt]
  omega

theorem hasBadWidth_encode_iff {i : Instr} (hi : i.wellFormed = true) :
    hasBadWidth (encode i) ↔ widthFault i = true := by
  have hop := encode_w0_toNat i
  cases i <;> simp only [Instr.wellFormed, Instr.wellFormedFor, Bool.and_eq_true] at hi
  case unpack | expand | quant => simp [hasBadWidth, hop, opcode, widthFault]
  case dec =>
    obtain ⟨hwidth, -⟩ := hi
    exact hasBadWidth_ofInt_iff (.inl hop) hwidth
  case pack =>
    obtain ⟨⟨hwidth, -⟩, -⟩ := hi
    exact hasBadWidth_ofInt_iff (.inr (.inl hop)) hwidth
  case enc =>
    obtain ⟨⟨hwidth, -⟩, -⟩ := hi
    exact hasBadWidth_ofInt_iff (.inr (.inr hop)) hwidth

/-- Operands in range read as they were written, a valid width as an unsigned number too, so that the words show the
payload's shape exactly (R184). -/
theorem wrongShape_iff_words {width : Int} {height len : Nat} (unit : Nat)
    (hi : (widthInRange width && heightInRange height && lenInRange Config.hardware len) = true)
    (hw : invalidWidth width = false) :
    wrongShape unit width.toNat height len = true ↔ (BitVec.ofNat 32 len).toNat ≠
      unit * (BitVec.ofInt 32 width).toNat * (BitVec.ofNat 32 height).toNat := by
  simp only [Bool.and_eq_true, widthInRange, heightInRange, decide_eq_true_eq] at hi
  obtain ⟨⟨hwidth, hheight⟩, hlen⟩ := hi
  have hpos : ¬ width ≤ 0 := by simpa [invalidWidth] using hw
  have hw1 : (BitVec.ofInt 32 width).toNat = width.toNat := by rw [BitVec.toNat_ofInt]; omega
  have hw2 : (BitVec.ofNat 32 height).toNat = height := Nat.mod_eq_of_lt (by omega)
  rw [hw1, hw2, len_word hlen, wrongShape, bne_iff_ne]

theorem hasBadLength_encode_iff {i : Instr} (hi : i.wellFormed = true) (hw : widthFault i = false) :
    hasBadLength (encode i) ↔ lengthFault i = true := by
  have hop := encode_w0_toNat i
  cases i with
  | unpack _ | expand _ | dec _ _ => simp [hasBadLength, hop, opcode, lengthFault]
  | quant len =>
    have hlen : (encode (.quant len)).w3.toNat = len := len_word hi
    simp [hasBadLength, hop, hlen, opcode, lengthFault, partialPixel]
  | pack width height len =>
    rw [lengthFault, wrongShape_iff_words 1 hi hw, Nat.one_mul]
    simp [hasBadLength, encode]
  | enc width height len =>
    rw [lengthFault, wrongShape_iff_words 4 hi hw]
    simp [hasBadLength, encode]

theorem hasBadIndex_encode_iff (i : Instr) (P : List Byte) :
    hasBadIndex (encode i) P ↔ indexFault P i = true := by
  have hop := encode_w0_toNat i
  cases i <;> simp [hasBadIndex, hop, opcode, indexFault, badIndex_iff_exists_byteAt]

/-! ### The status of an answer (R183, R188) -/

/-- Within `LMAX`, what spells no command is answered ILLEGAL_CMD whatever its payload (R183). -/
theorem answer_of_isIllegal {d : Descriptor} (hlen : d.w3.toNat ≤ 268435455) (hill : isIllegal d) (P : List Byte) :
    answer d P = some (faultReply .illegalCmd) := by
  obtain ⟨-, hiff⟩ := illegalAndRefusedDescriptorsAreThose d
  obtain ⟨cause, hd⟩ := hiff.mpr ⟨hlen, hill⟩
  rw [answer, hd]

/-- Within `LMAX`, what is not illegal is the descriptor of a well-formed command, whose answer it has. -/
theorem exists_command_of_not_isIllegal {d : Descriptor} (hlen : d.w3.toNat ≤ 268435455) (hill : ¬ isIllegal d) :
    ∃ i : Instr, i.wellFormed = true ∧ encode i = d ∧ ∀ P, answer d P = some (replyFor Config.hardware i P) := by
  obtain ⟨hrefused, hillegal⟩ := illegalAndRefusedDescriptorsAreThose d
  cases hd : decode d with
  | command i =>
    obtain ⟨hi, henc⟩ := decodedDescriptorIsItsEncoding Config.hardware d i hd
    exact ⟨i, hi, henc, fun P => by rw [answer, hd]⟩
  | illegal cause => exact absurd (hillegal.mp ⟨cause, hd⟩).2 hill
  | refused => exact absurd (hrefused.mp hd) hlen.not_gt

/-- Settles O28: a descriptor that is not illegal is some command's encoding, whose words show the causes that the
command's answer tests for. -/
theorem statusIsTheFirstCauseThatApplies : Obligations.StatusIsTheFirstCauseThatApplies := by
  constructor
  · intro d P hlen
    rw [answer, decode_eq_refused_iff.mpr hlen]
  · intro d P hlen _
    by_cases hill : isIllegal d
    · refine ⟨_, answer_of_isIllegal hlen hill P, ?_⟩
      simp [hill, Status.code]
    · obtain ⟨i, hi, rfl, hanswer⟩ := exists_command_of_not_isIllegal hlen hill
      refine ⟨_, hanswer P, ?_⟩
      rw [(replyFor_ends Config.hardware i P).status, hasBadWidth_encode_iff hi, hasBadIndex_encode_iff, outcome]
      cases hw : widthFault i with
      | true => simp [hill, Status.code]
      | false =>
        rw [hasBadLength_encode_iff hi hw]
        cases lengthFault i with
        | true => simp [hill, Status.code]
        | false => cases indexFault P i <;> simp [hill, Status.code]

/-! ### A fault as the machine carries it out (R190) -/

/-- An answer with a status other than OK is the fault outcome (R190). -/
theorem answer_eq_faultReply {d : Descriptor} {P : List Byte} {r : Reply} (h : answer d P = some r)
    (hst : r.status ≠ 0) : ∃ st, r = faultReply st := by
  unfold answer at h
  split at h <;> cases h
  case h_1 i _ => exact ⟨_, (replyFor_ends Config.hardware i P).eq_faultReply hst⟩
  case h_2 => exact ⟨_, rfl⟩

/-- Settles O29: the answer is the fault outcome, which needs no room on DOUT and EVT and puts nothing there. -/
theorem faultConsumesPayloadAndDeliversStatusOnly : Obligations.FaultConsumesPayloadAndDeliversStatusOnly := by
  intro s d rest r hrst hcore hcmd hready hanswer hst hrsp
  obtain ⟨st, rfl⟩ := answer_eq_faultReply hanswer hst
  rw [commandIsOneStepFromIdleToIdle s d rest _ hrst hcore hcmd hready hanswer
    ⟨s.dout.hasRoom_zero, s.evt.hasRoom_zero, hrsp⟩]
  simp [responseWords]

/-- Settles O30: ILLEGAL_CMD is one of the faults. -/
theorem illegalDescriptorIsAnswered : Obligations.IllegalDescriptorIsAnswered := by
  intro s d rest hrst hcore hcmd hready hlen hill hrsp
  exact faultConsumesPayloadAndDeliversStatusOnly s d rest _ hrst hcore hcmd hready
    (answer_of_isIllegal hlen hill _) (faultReply_status_ne_zero nofun) hrsp

/-! ### The events of an answer (R77, R195, R196) -/

/-- A legal percentage fits its byte of the record, so that both bytes read back (R77). -/
theorem eventRecord_fields {p : Config.Params} (hp : p.legal = true) (m : Milestone) :
    ((eventRecord p m).toNat % 256, (eventRecord p m).toNat / 256) = (m.kind, m.percent p) := by
  simp only [Config.Params.legal, Bool.and_eq_true, decide_eq_true_eq] at hp
  have hkind : m.kind < 256 := by cases m <;> decide
  have hpercent : m.percent p ≤ 100 := by cases m <;> simp only [Milestone.percent] <;> omega
  have hrecord : (eventRecord p m).toNat = m.kind + m.percent p * 256 := Nat.mod_eq_of_lt (by omega)
  rw [hrecord, Prod.mk.injEq]
  omega

/-- The events of a command that ends with OK, as pairs of `KIND` and `PCT`. -/
theorem replyFor_events_fields {p : Config.Params} (hp : p.legal = true) {i : Instr} {P : List Byte}
    (hok : (replyFor p i P).status = 0) :
    (replyFor p i P).events.map (fun e => (e.toNat % 256, e.toNat / 256)) =
      (milestones i).map fun m => (m.kind, m.percent p) := by
  rw [(replyFor_ends p i P).events_of_ok hok, List.map_map]
  exact List.map_congr_left fun m _ => eventRecord_fields hp m

/-- Settles O34: the events are those of the command's milestones if it ends with OK, and a fault has none. -/
theorem eventsAreThoseOfTheMilestones : Obligations.EventsAreThoseOfTheMilestones := by
  intro p i P hp
  refine ⟨?_, ?_, ?_⟩
  · rintro w len rfl hok
    exact replyFor_events_fields hp hok
  · rintro w h len rfl hok
    exact replyFor_events_fields hp hok
  · intro hnone
    by_cases hok : (replyFor p i P).status = 0
    · obtain ⟨hdec, henc⟩ := hnone.resolve_right (not_not.mpr hok)
      rw [(replyFor_ends p i P).events_of_ok hok]
      cases i with
      | dec w len => exact absurd rfl (hdec w len)
      | enc w h len => exact absurd rfl (henc w h len)
      | _ => rfl
    · rw [(replyFor_ends p i P).eq_faultReply hok, faultReply_events]

end Sys2Proof.Machine
end

section
/-! Reset and hazards (70_reset_and_hazards): what RST leaves of a command, where the core waits, commands queued ahead,
the bytes a host owes on DIN, and what the host may do. -/

namespace Sys2Proof.Machine

/-! ### Reset (R211, R212) -/

theorem step_of_rst {s : State} (h : s.rst = true) : step s = .next s.resetCore := by
  simp [step, h]

theorem resetCore_of_idle {s : State} (hc : s.core = .idle) : s.resetCore = s := by
  simp [State.resetCore, hc]

/-- Reset leaves the core idle, and what the host drives as it was (log entries 6, 15, 19 and 20). -/
theorem resetCore_frame (s : State) :
    s.resetCore.core = .idle ∧ s.resetCore.cmd = s.cmd ∧ s.resetCore.rst = s.rst := by
  cases hc : s.core with
  | idle => rw [resetCore_of_idle hc]; exact ⟨hc, rfl, rfl⟩
  | _ => simp [State.resetCore, hc, State.abandon]

/-- Settles O9: under RST the step is `State.resetCore`. -/
theorem assertedResetIdlesCore : Obligations.AssertedResetIdlesCore := by
  intro s hrst
  obtain ⟨hcore, hcmd, hlevel⟩ := resetCore_frame s
  exact ⟨s.resetCore, step_of_rst hrst, hcore, hcmd, hlevel.trans hrst, resetCore_of_idle⟩

/-- A command of which nothing has been delivered on a channel leaves the channel as it was. -/
@[simp] theorem Channel.abandon_zero_nil {α : Type} (c : Channel α) : c.abandon 0 [] = c := by
  simp [Channel.abandon]

theorem abandon_rsp_of_none_sent (s : State) (d : Descriptor) (payload : List PlacedByte) (outSent eventsSent : Nat) :
    (s.abandon d payload outSent eventsSent 0).rsp = s.rsp := by
  simp [State.abandon]

/-- At most `LEN` bytes of an abandoned command's payload are gone (R212; log entry 5). -/
theorem exists_abandon_din_eq_drop (s : State) (d : Descriptor) (payload : List PlacedByte)
    (outSent eventsSent wordsSent : Nat) :
    ∃ k, k ≤ d.len ∧ (s.abandon d payload outSent eventsSent wordsSent).din = (payload ++ s.din).drop k :=
  ⟨_, Nat.min_le_right _ _, rfl⟩

/-- Settles O11: a core that still takes payload is abandoned with no response word sent. -/
theorem abandonedReceiverDeliversNoResponse : Obligations.AbandonedReceiverDeliversNoResponse := by
  intro s d bytes hrst hc
  have hreset : s.resetCore = s.abandon d bytes 0 0 0 := by
    obtain hc | ⟨payload, hc, rfl⟩ := hc <;> simp [State.resetCore, hc]
  rw [step_of_rst hrst, hreset]
  exact ⟨_, rfl, abandon_rsp_of_none_sent .., exists_abandon_din_eq_drop ..⟩

/-- Abandoning puts behind the elements that are not the command's own at most as many as there are stale ones. -/
theorem exists_abandon_items_eq {α : Type} (c : Channel α) (sent : Nat) (stale : List α) :
    ∃ left, left.length ≤ stale.length ∧
      (c.abandon sent stale).items = c.items.take (c.items.length - sent) ++ left :=
  ⟨_, List.length_take_le' _ _, rfl⟩

/-- A core that is still sending has not delivered the fourth response word (R223). -/
theorem wordsSent_lt_of_inv {serial : Nat} {d : Descriptor} {payload : List Byte} {o : Outgoing}
    (h : (CoreState.sending d payload o).Inv serial) : o.wordsSent < 4 := by
  obtain ⟨-, hdone, hlast, r, hr, -, -, hsent, hwords⟩ := inv_sending_iff.mp h
  rw [answer_words_length hr] at hsent
  by_contra hall
  have hout : o.outputDone = true := hlast.resolve_left (by omega)
  have hleft : o.words ≠ [] := by simpa [Outgoing.done, hout] using hdone
  exact hleft (hwords.trans (List.drop_eq_nil_of_le (by rw [answer_words_length hr]; omega)))

/-- Settles O10: of the words left on RSP there are at most as many as of the response that stood there, and the response
was short of its fourth. -/
theorem abandonedCommandDeliversNoResponse : Obligations.AbandonedCommandDeliversNoResponse := by
  intro s d payload o hs hrst hc
  obtain ⟨hcore, -⟩ := State.inv_iff.mp hs
  have hshort : o.wordsSent < 4 := wordsSent_lt_of_inv (hc ▸ hcore)
  obtain ⟨stale, hlen, hitems⟩ := exists_abandon_items_eq s.rsp o.wordsSent
    ((Config.abandonedWords s.draws).take (min o.wordsSent s.rsp.items.length))
  rw [List.length_take] at hlen
  have hreset : s.resetCore =
      s.abandon d (payload.map (placedFor s.serial)) o.outSent o.eventsSent o.wordsSent := by
    simp [State.resetCore, hc]
  rw [step_of_rst hrst, hreset]
  exact ⟨_, stale, rfl, by omega, hitems, exists_abandon_din_eq_drop ..⟩

/-! ### Where the core waits (R217) -/

theorem fetch_of_short_cmd {s : State} (hc : s.core = .idle) (h : s.cmd.length < 4) : fetch s = none := by
  simp only [fetch, hc]
  split
  next hcmd => simp [hcmd] at h; omega
  next => rfl

/-- A busy core holds a descriptor. -/
theorem idle_of_fetch_eq_none {s : State} (h : fetch s = none) : s.core = .idle := by
  cases hc : s.core <;> simp [fetch, hc] at h ⊢

theorem step_of_fetch_none {s : State} (hrst : s.rst = false) (h : fetch s = none) : step s = .next s := by
  simp [step, hrst, h]

/-- Settles O6: there is nothing to fetch. -/
theorem idleCoreWaitsForDescriptor : Obligations.IdleCoreWaitsForDescriptor := by
  intro s hrst hc h
  exact step_of_fetch_none hrst (fetch_of_short_cmd hc h)

/-- A receiving core goes on taking payload for the descriptor it holds. -/
theorem exec_of_receiving {s : State} {d : Descriptor} {payload : List Byte} (i : Instr)
    (hc : s.core = .receiving d payload) :
    exec i s = .next (s.receive d i.len (replyFor Config.hardware i) payload) := by
  rw [exec_eq_runCommand]
  simp [runCommand, hc]

/-- Settles O7: the core takes all of DIN, and it is not enough. -/
theorem commandWaitsForMissingPayload : Obligations.CommandWaitsForMissingPayload := by
  intro s i d payload hc hshort hown
  rw [exec_of_receiving i hc, receive_waits _ _ _ _ _ hshort hown, State.nextBytes, List.take_length]
  rfl

/-- A step that leaves the core busy has just taken payload or delivered. -/
theorem busy_step_cases {s t : State} (h : step s = .next t) (hbusy : t.core ≠ .idle) :
    (∃ s' d len respond payload, t = State.receive s' d len respond payload) ∨
    ∃ d payload o, t = s.deliver d payload o := by
  obtain ⟨-, rfl⟩ | ⟨-, hf, rfl⟩ | ⟨-, d, s', respond, hf, -, -, hrun⟩ := step_cases h
  · exact absurd (resetCore_frame s).1 hbusy
  · exact absurd (idle_of_fetch_eq_none hf) hbusy
  · obtain ⟨payload, -, rfl⟩ | ⟨payload, o, -, rfl⟩ | ⟨rest, -, -, rfl⟩ := runCommand_fetched_cases hf hrun
    · exact .inl ⟨_, _, _, _, _, rfl⟩
    · exact .inr ⟨_, _, _, rfl⟩
    · exact .inl ⟨_, _, _, _, _, rfl⟩

/-- A channel that has taken fewer elements than were offered is full. -/
theorem Channel.hasRoom_one_put_accepts {α : Type} (c : Channel α) {xs : List α} {n : Nat}
    (hn : c.accepts n < n) (hxs : xs.length = c.accepts n) : (c.put xs).hasRoom 1 = false := by
  cases hc : c.capacity with
  | none => simp [Channel.accepts, hc] at hn
  | some k =>
    simp only [Channel.accepts, hc] at hn hxs
    simp [Channel.hasRoom, Channel.accepts, hc]
    omega

/-- What holds a sending core up: output, events or response words that are left, and no room for the first of them
(R217). -/
def State.HeldUp (s : State) : Prop :=
  ∀ d payload o, s.core = .sending d payload o →
    (o.out ≠ [] ∧ s.dout.hasRoom 1 = false) ∨ (o.events ≠ [] ∧ s.evt.hasRoom 1 = false) ∨
    (o.outputDone = true ∧ o.words ≠ [] ∧ s.rsp.hasRoom 1 = false)

/-- Delivering goes on until the answer has gone or a channel is full. -/
theorem deliver_heldUp (s : State) (d : Descriptor) (payload : List Byte) (o : Outgoing) :
    (s.deliver d payload o).HeldUp := by
  obtain ⟨s₁, o₁, n, hsend, -, hn, -, hroom, -, heq⟩ := deliver_cases s d payload o
  have hstops := sendOutput_stops s o
  rw [hsend] at hstops
  rw [heq]
  split
  case isTrue => exact nofun
  case isFalse hleft =>
    rintro _ _ _ ⟨⟩
    obtain (hdone : o₁.outputDone = true) | hfull | hfull := hstops
    · have hwords : o₁.words.drop n ≠ [] := by simpa [hdone] using hleft
      have hlt : n < o₁.words.length := by simpa using hwords
      have hn' := hroom hdone
      refine .inr (.inr ⟨hdone, hwords, Channel.hasRoom_one_put_accepts (n := o₁.words.length) _ (by omega) ?_⟩)
      rw [List.length_take, Nat.min_eq_left hn, hn']
    · exact .inl hfull
    · exact .inr (.inl hfull)

/-- A core that has taken payload and still is receiving has taken all of DIN. -/
theorem receive_din_eq_nil {s : State} {d d' : Descriptor} {len : Nat} {respond : List Byte → Reply}
    {payload payload' : List Byte} (h : (s.receive d len respond payload).core = .receiving d' payload') :
    (s.receive d len respond payload).din = [] := by
  obtain ⟨-, heq⟩ | ⟨-, -, heq⟩ | ⟨-, -, heq⟩ := receive_cases s d len respond payload <;> rw [heq] at h ⊢
  · cases h
  · rfl
  · obtain hc | ⟨o, hc, -⟩ := deliver_core (s.withDin (s.din.drop (len - payload.length))) d _ _ <;>
      cases hc.symm.trans h

theorem receive_heldUp (s : State) (d : Descriptor) (len : Nat) (respond : List Byte → Reply) (payload : List Byte) :
    (s.receive d len respond payload).HeldUp := by
  obtain ⟨-, heq⟩ | ⟨-, -, heq⟩ | ⟨-, -, heq⟩ := receive_cases s d len respond payload <;> rw [heq]
  · exact nofun
  · exact nofun
  · exact deliver_heldUp _ _ _ _

/-- Settles O8: the invariant says what a receiving core and one that is astray hold; a step takes all of DIN or delivers
until a channel is full. -/
theorem busyCoreLacksPayloadOrRoom : Obligations.BusyCoreLacksPayloadOrRoom := by
  intro s t hs h
  obtain ⟨hcore, -⟩ := State.inv_iff.mp (everyStepKeepsInvariant s t hs h)
  refine ⟨fun d payload hc => ⟨?_, ?_⟩, fun d payload o hc => ?_, fun d bytes hc => ?_⟩
  · obtain ⟨s', d', len, respond, payload', rfl⟩ | ⟨d', payload', o, rfl⟩ := busy_step_cases h (by simp [hc])
    · exact receive_din_eq_nil hc
    · obtain hc' | ⟨o', hc', -⟩ := deliver_core s d' payload' o <;> cases hc'.symm.trans hc
  · obtain ⟨hlack, -⟩ : (CoreState.receiving d payload).Inv t.serial := hc ▸ hcore
    exact hlack
  · obtain ⟨s', d', len, respond, payload', rfl⟩ | ⟨d', payload', o', rfl⟩ := busy_step_cases h (by simp [hc])
    · exact receive_heldUp _ _ _ _ _ d payload o hc
    · exact deliver_heldUp _ _ _ _ d payload o hc
  · obtain ⟨-, -, hstray⟩ : (CoreState.strayed d bytes).Inv t.serial := hc ▸ hcore
    exact hstray

/-! ### Stray payload (R219) -/

/-- A core that is to take a byte placed for another command takes it and is astray. -/
theorem receive_of_stray {s : State} {len : Nat} {payload : List Byte}
    (h : s.ownsBytes (len - payload.length) = false) (d : Descriptor) (respond : List Byte → Reply) :
    s.receive d len respond payload = (s.withDin (s.din.drop (len - payload.length))).withCore
      (.strayed d (payload.map (placedFor s.serial) ++ s.din.take (len - payload.length))) := by
  obtain ⟨-, heq⟩ | ⟨hown, -⟩ | ⟨hown, -⟩ := receive_cases s d len respond payload
  · exact heq
  · exact absurd (h.symm.trans hown) nofun
  · exact absurd (h.symm.trans hown) nofun

/-- An idle core starts with the command's own descriptor. -/
theorem exec_of_idle {s : State} (i : Instr) (hc : s.core = .idle) :
    exec i s = .next (s.receive (encode i) i.len (replyFor Config.hardware i) []) := by
  rw [exec_eq_runCommand]
  simp [runCommand, hc]

theorem runCommand_of_strayed {s : State} {d : Descriptor} {bytes : List PlacedByte} (hc : s.core = .strayed d bytes)
    (d' : Descriptor) (len : Nat) (respond : List Byte → Reply) :
    runCommand d' len respond s = .refused .strayPayload := by
  simp [runCommand, hc]

/-- Settles O57: the core takes the stray byte as `State.receive` does, and `runCommand` refuses a core that is astray. -/
theorem strayPayloadIsTakenAndThenRefused : Obligations.StrayPayloadIsTakenAndThenRefused := by
  refine ⟨fun s i d payload hc hstray => ?_, fun s d bytes hc => ⟨fun i => ?_, fun hrst hd => ?_⟩⟩
  · obtain hc | ⟨hc, rfl, rfl⟩ := hc
    · rw [exec_of_receiving i hc, receive_of_stray hstray]
      rfl
    · rw [exec_of_idle i hc, receive_of_stray hstray]
      rfl
  · rw [exec_eq_runCommand, runCommand_of_strayed hc]
  · obtain ⟨respond, -, hstep⟩ := step_of_fetch hrst (fetch_of_busy (payload := []) (.inr (.inr ⟨bytes, hc⟩))) hd
    rw [hstep, runCommand_of_strayed hc]

/-! ### The writes of a command (R222) -/

/-- Settles O35: a whole answer is at most `16 * LEN + 6` elements. -/
theorem writesAreBoundedByInputSize : Obligations.WritesAreBoundedByInputSize := by
  intro d P r hP hanswer
  exact (answer_size_le hP hanswer).trans (by omega)

/-! ### What the host may do (R212, R215, R221) -/

/-- Settles O54: the invariant speaks of the core and of what stands on DOUT, EVT and RSP, of which the host can only
take. -/
theorem hostActsKeepInvariant : Obligations.HostActsKeepInvariant := by
  intro s c ws bytes n level hs
  obtain ⟨hcore, hdout, hevt, hrsp⟩ := hs
  refine ⟨?words, ?payload, ?issue, ?dout, ?evt, ?rsp, ?reset, ?flush⟩
  case dout => exact ⟨hcore, Channel.within_take _ hdout, hevt, hrsp⟩
  case evt => exact ⟨hcore, hdout, Channel.within_take _ hevt, hrsp⟩
  case rsp => exact ⟨hcore, hdout, hevt, Channel.within_take _ hrsp⟩
  case flush => exact ⟨hcore, Channel.within_take _ hdout, Channel.within_take _ hevt, Channel.within_take _ hrsp⟩
  all_goals exact ⟨hcore, hdout, hevt, hrsp⟩

/-! ### Commands queued ahead (R215) -/

/-- The state with more words on CMD and more bytes on DIN, behind those that stand there. -/
def State.queued (s : State) (ws : List Word) (bs : List PlacedByte) : State :=
  (s.withCmd (s.cmd ++ ws)).withDin (s.din ++ bs)

theorem hostIssue_eq_queued (s : State) (c : Command) :
    s.hostIssue c = s.queued c.desc.words (c.payload.map (placedFor s.nextSerial)) := rfl

section
variable (s : State) (ws : List Word) (bs : List PlacedByte)

@[simp] theorem queued_dout : (s.queued ws bs).dout = s.dout := rfl
@[simp] theorem queued_evt : (s.queued ws bs).evt = s.evt := rfl
@[simp] theorem queued_draws : (s.queued ws bs).draws = s.draws := rfl
@[simp] theorem queued_drawn : (s.queued ws bs).drawn = s.drawn.queued ws bs := rfl
@[simp] theorem sendBytes_queued (o : Outgoing) (n : Nat) :
    (s.queued ws bs).sendBytes o n = ((s.sendBytes o n).1.queued ws bs, (s.sendBytes o n).2) := rfl
@[simp] theorem sendEvents_queued (o : Outgoing) (n : Nat) :
    (s.queued ws bs).sendEvents o n = ((s.sendEvents o n).1.queued ws bs, (s.sendEvents o n).2) := rfl

theorem sendInterleaved_queued (fuel : Nat) (o : Outgoing) :
    sendInterleaved fuel (s.queued ws bs) o =
      ((sendInterleaved fuel s o).1.queued ws bs, (sendInterleaved fuel s o).2) := by
  induction fuel generalizing s o with
  | zero => rfl
  | succ fuel ih =>
    cases hout : o.out <;> cases hevents : o.events <;>
      simp only [sendInterleaved, hout, hevents, queued_dout, queued_evt, queued_draws, queued_drawn,
        sendBytes_queued, sendEvents_queued, ih]
    case cons.nil => split <;> rfl
    case nil.cons => split <;> rfl
    case cons.cons => split <;> split <;> rfl

theorem sendOutput_queued (o : Outgoing) :
    sendOutput (s.queued ws bs) o = ((sendOutput s o).1.queued ws bs, (sendOutput s o).2) := by
  simp only [sendOutput, queued_dout, queued_evt, sendInterleaved_queued]
  split <;> rfl

theorem sendResponse_queued (o : Outgoing) :
    sendResponse (s.queued ws bs) o = ((sendResponse s o).1.queued ws bs, (sendResponse s o).2) := by
  unfold sendResponse
  split <;> rfl

/-- Delivering does not look at what the host has queued. -/
theorem deliver_queued (d : Descriptor) (payload : List Byte) (o : Outgoing) :
    (s.queued ws bs).deliver d payload o = (s.deliver d payload o).queued ws bs := by
  simp only [State.deliver, sendOutput_queued, sendResponse_queued]
  split <;> rfl

/-- Taking payload that is all there does not look at it either. -/
theorem receive_queued (d : Descriptor) {len : Nat} (respond : List Byte → Reply) {payload : List Byte}
    (hlen : len - payload.length ≤ s.din.length) :
    (s.queued ws bs).receive d len respond payload = (s.receive d len respond payload).queued ws bs := by
  have htake : (s.queued ws bs).din.take (len - payload.length) = s.din.take (len - payload.length) :=
    List.take_append_of_le_length hlen
  have hdrop : (s.queued ws bs).withDin ((s.queued ws bs).din.drop (len - payload.length)) =
      (s.withDin (s.din.drop (len - payload.length))).queued ws bs := by
    simp [State.queued, State.withDin, State.withCmd, List.drop_append_of_le_length hlen]
  have hown : (s.queued ws bs).ownsBytes (len - payload.length) = s.ownsBytes (len - payload.length) := by
    unfold State.ownsBytes
    rw [htake]
    rfl
  simp only [State.receive, htake, hdrop, hown, deliver_queued]
  split
  · rfl
  · split <;> rfl

end

theorem deliver_nextSerial (s : State) (d : Descriptor) (payload : List Byte) (o : Outgoing) :
    (s.deliver d payload o).nextSerial = s.serial + 1 + s.cmd.length / 4 := by
  obtain ⟨hcmd, -, -, -, -, -, -, -, -, -, -, -, -, hserial⟩ := deliver_frame s d payload o
  obtain hc | ⟨o', hc, -⟩ := deliver_core s d payload o <;> simp [State.nextSerial, hcmd, hserial, hc]

/-- Whether the command in flight ends or goes on, the next one on CMD has the same number. -/
theorem receive_nextSerial (s : State) (d : Descriptor) (len : Nat) (respond : List Byte → Reply)
    (payload : List Byte) : (s.receive d len respond payload).nextSerial = s.serial + 1 + s.cmd.length / 4 := by
  obtain ⟨-, heq⟩ | ⟨-, -, heq⟩ | ⟨-, -, heq⟩ := receive_cases s d len respond payload <;> rw [heq]
  · rfl
  · rfl
  · exact deliver_nextSerial _ _ _ _

/-- The state in which an idle core has taken a descriptor from CMD (R24, R60). -/
def State.latched (s : State) (d : Descriptor) (rest : List Word) : State :=
  (s.withCmd rest).withCore (.receiving d [])

/-- An idle core takes the descriptor at the head of CMD, and then payload for the answer. -/
theorem step_of_idle {s : State} {d : Descriptor} {rest : List Word} {respond : List Byte → Reply}
    (hrst : s.rst = false) (hc : s.core = .idle) (hcmd : s.cmd = d.words ++ rest)
    (ha : ∀ P, answer d P = some (respond P)) : step s = .next ((s.latched d rest).receive d d.len respond []) := by
  obtain ⟨respond', ha', hstep⟩ :=
    step_of_fetch hrst (fetch_of_idle hc hcmd) (decode_ne_refused_of_answer (ha []))
  obtain rfl : respond' = respond := funext fun P => Option.some.inj ((ha' P).symm.trans (ha P))
  exact hstep

/-- The descriptor that an idle core is to take counts as the command in flight does. -/
theorem nextSerial_of_idle {s : State} {d : Descriptor} {rest : List Word} (hc : s.core = .idle)
    (hcmd : s.cmd = d.words ++ rest) : s.nextSerial = s.serial + 1 + rest.length / 4 := by
  simp [State.nextSerial, hc, hcmd, Descriptor.words]
  omega

/-- Settles O55: the core takes the descriptor and the payload that stood before what is queued. -/
theorem queueingAheadChangesNothing : Obligations.QueueingAheadChangesNothing := by
  intro s t c d rest hrst hc hcmd hlen h
  have hd : decode d ≠ .refused := fun hd => by
    rw [step_of_fetch_refused hrst (fetch_of_idle hc hcmd) hd] at h
    cases h
  obtain ⟨respond, ha, -⟩ := step_of_fetch hrst (fetch_of_idle hc hcmd) hd
  rw [step_of_idle hrst hc hcmd ha] at h
  cases h
  have hcmd' : (s.hostIssue c).cmd = d.words ++ (rest ++ c.desc.words) := by
    rw [← List.append_assoc, ← hcmd]
    rfl
  rw [step_of_idle (s := s.hostIssue c) hrst hc hcmd' ha, hostIssue_eq_queued (State.receive _ _ _ _ _),
    receive_nextSerial, ← receive_queued _ _ _ d respond hlen]
  have hserial : (s.latched d rest).serial + 1 + (s.latched d rest).cmd.length / 4 = s.nextSerial :=
    (nextSerial_of_idle hc hcmd).symm
  rw [hserial]
  rfl

/-! ### A host that keeps R219 -/

theorem serialsFor_words_append (n : Nat) (d : Descriptor) (ws : List Word) :
    serialsFor n (d.words ++ ws) = List.replicate d.len n ++ serialsFor (n + 1) ws := rfl

/-- A descriptor behind whole descriptors is that of the command as many numbers on. -/
theorem serialsFor_append_words (n : Nat) (d : Descriptor) {ws : List Word} (h : ws.length % 4 = 0) :
    serialsFor n (ws ++ d.words) = serialsFor n ws ++ List.replicate d.len (n + ws.length / 4) := by
  induction n, ws using serialsFor.induct with
  | case1 n w0 w1 w2 w3 rest ih =>
    have hrest : rest.length % 4 = 0 := by simp at h; omega
    have hnumber : n + (rest.length + 1 + 1 + 1 + 1) / 4 = n + 1 + rest.length / 4 := by omega
    simp [serialsFor, ih hrest, hnumber]
  | case2 ws n hws =>
    match ws, hws with
    | [], _ => simp [serialsFor, Descriptor.words, Descriptor.len]
    | [_], _ => simp at h
    | [_, _], _ => simp at h
    | [_, _, _], _ => simp at h
    | w0 :: w1 :: w2 :: w3 :: rest, hws => exact (hws w0 w1 w2 w3 rest rfl).elim

theorem disciplined_iff {s : State} :
    s.disciplined ↔ s.onCourse = true ∧ s.dueSerials = s.placedSerials ++ s.missingSerials := by
  unfold State.disciplined State.missingSerials
  refine and_congr_right fun _ => ⟨fun h => ?_, fun h => ⟨_, h.symm⟩⟩
  exact (List.prefix_iff_eq_append.mp h).symm

/-- A part of the bytes due has been placed, and these are missing. -/
theorem disciplined_of_due_eq {s : State} {missing : List Nat} (hc : s.onCourse = true)
    (h : s.dueSerials = s.placedSerials ++ missing) : s.disciplined ∧ s.missingSerials = missing :=
  ⟨⟨hc, missing, h.symm⟩, by rw [State.missingSerials, h, List.drop_left]⟩

theorem supplied_iff {s : State} : s.supplied ↔ s.disciplined ∧ s.missingSerials = [] := by
  constructor
  · rintro ⟨hc, h⟩
    exact disciplined_of_due_eq hc (by rw [h, List.append_nil])
  · rintro ⟨hs, hmissing⟩
    obtain ⟨hc, h⟩ := disciplined_iff.mp hs
    exact ⟨hc, by rw [h, hmissing, List.append_nil]⟩

/-! #### What a step takes is taken off the bytes due -/

/-- From `s` to `t` the core has taken the first of the bytes on DIN, and they were the first of those due. -/
def State.TakesDue (s t : State) : Prop :=
  ∃ taken, s.placedSerials = taken ++ t.placedSerials ∧ s.dueSerials = taken ++ t.dueSerials

theorem State.TakesDue.disciplined {s t : State} (h : s.TakesDue t) (hs : s.disciplined) (ht : t.onCourse = true) :
    t.disciplined ∧ t.missingSerials = s.missingSerials := by
  obtain ⟨taken, hplaced, hdue⟩ := h
  obtain ⟨-, hs⟩ := disciplined_iff.mp hs
  rw [hplaced, hdue, List.append_assoc, List.append_cancel_left_eq] at hs
  exact disciplined_of_due_eq ht hs

/-- Delivering leaves due what the descriptors on CMD need. -/
theorem deliver_dueSerials (s : State) (d : Descriptor) (payload : List Byte) (o : Outgoing) :
    (s.deliver d payload o).dueSerials = serialsFor (s.serial + 1) s.cmd := by
  obtain ⟨hcmd, -, -, -, -, -, -, -, -, -, -, -, -, hserial⟩ := deliver_frame s d payload o
  obtain hc | ⟨o', hc, -⟩ := deliver_core s d payload o <;> simp [State.dueSerials, hcmd, hserial, hc]

theorem deliver_placedSerials (s : State) (d : Descriptor) (payload : List Byte) (o : Outgoing) :
    (s.deliver d payload o).placedSerials = s.placedSerials := by
  obtain ⟨-, -, hdin, -⟩ := deliver_frame s d payload o
  rw [State.placedSerials, hdin, State.placedSerials]

theorem deliver_onCourse (s : State) (d : Descriptor) (payload : List Byte) (o : Outgoing) :
    (s.deliver d payload o).onCourse = true := by
  obtain hc | ⟨o', hc, -⟩ := deliver_core s d payload o <;> simp [State.onCourse, hc]

theorem ownsBytes_iff_take_placedSerials {s : State} {n : Nat} :
    s.ownsBytes n = true ↔ s.placedSerials.take n = List.replicate (s.din.take n).length s.serial := by
  rw [ownsBytes_iff, State.placedSerials, ← List.map_take, List.map_eq_replicate_iff]

theorem dueSerials_of_receiving {s : State} {d : Descriptor} {payload : List Byte}
    (hc : s.core = .receiving d payload) :
    s.dueSerials = List.replicate (d.len - payload.length) s.serial ++ serialsFor (s.serial + 1) s.cmd := by
  simp [State.dueSerials, hc]

/-- While the host keeps R219 the bytes that a receiving core takes are its own. -/
theorem ownsBytes_of_disciplined {s : State} {d : Descriptor} {payload : List Byte} (hs : s.disciplined)
    (hc : s.core = .receiving d payload) : s.ownsBytes (d.len - payload.length) = true := by
  obtain ⟨-, hprefix⟩ := hs
  have htake : s.placedSerials.take (d.len - payload.length) <+:
      List.replicate (d.len - payload.length) s.serial := by
    have h := hprefix.take (d.len - payload.length)
    rwa [dueSerials_of_receiving hc, List.take_left' List.length_replicate] at h
  obtain ⟨-, heq⟩ := List.prefix_replicate_iff.mp htake
  rw [ownsBytes_iff_take_placedSerials, heq]
  simp [State.placedSerials]

/-- A receiving core whose next bytes are its own takes the first of those due. -/
theorem receive_takesDue {s : State} {d : Descriptor} {payload : List Byte} (respond : List Byte → Reply)
    (hc : s.core = .receiving d payload) (hown : s.ownsBytes (d.len - payload.length) = true) :
    s.TakesDue (s.receive d d.len respond payload) ∧ (s.receive d d.len respond payload).onCourse = true := by
  have htaken := ownsBytes_iff_take_placedSerials.mp hown
  have hdue := dueSerials_of_receiving hc
  obtain ⟨hstray, -⟩ | ⟨-, hshort, heq⟩ | ⟨-, hfull, heq⟩ := receive_cases s d d.len respond payload
  · exact absurd (hown.symm.trans hstray) nofun
  · rw [heq]
    have hall : s.placedSerials = List.replicate s.din.length s.serial := by
      rwa [List.take_of_length_le (by simp [State.placedSerials]; omega), List.take_of_length_le (by omega)] at htaken
    have hrest : d.len - payload.length = s.din.length + (d.len - (payload.length + s.din.length)) := by omega
    refine ⟨⟨s.placedSerials, by simp [State.placedSerials], ?_⟩, rfl⟩
    rw [hdue, hall, hrest, ← List.replicate_append_replicate, List.append_assoc]
    simp [State.dueSerials]
  · rw [heq]
    refine ⟨⟨s.placedSerials.take (d.len - payload.length), ?_, ?_⟩, deliver_onCourse _ _ _ _⟩
    · rw [deliver_placedSerials]
      simp [State.placedSerials]
    · rw [deliver_dueSerials, hdue, htaken, List.length_take, Nat.min_eq_left (by omega)]
      rfl

/-- Taking a descriptor makes its payload bytes those of the command in flight. -/
theorem latched_dueSerials {s : State} {d : Descriptor} {rest : List Word} (hc : s.core = .idle)
    (hcmd : s.cmd = d.words ++ rest) : (s.latched d rest).dueSerials = s.dueSerials := by
  simp [State.latched, State.dueSerials, hc, hcmd, serialsFor_words_append]

theorem latched_disciplined {s : State} {d : Descriptor} {rest : List Word} (hc : s.core = .idle)
    (hcmd : s.cmd = d.words ++ rest) (hs : s.disciplined) : (s.latched d rest).disciplined :=
  ⟨rfl, (latched_dueSerials hc hcmd).symm ▸ hs.2⟩

/-- A step without RST takes the first of the bytes due, and takes no other. -/
theorem step_takesDue {s t : State} (hs : s.disciplined) (hrst : s.rst = false) (h : step s = .next t) :
    s.TakesDue t ∧ t.onCourse = true := by
  obtain ⟨hrst', -⟩ | ⟨-, -, rfl⟩ | ⟨-, d, s', respond, hf, -, -, hrun⟩ := step_cases h
  · exact absurd (hrst.symm.trans hrst') nofun
  · exact ⟨⟨[], rfl, rfl⟩, hs.1⟩
  · obtain ⟨payload, hc, rfl⟩ | ⟨payload, o, hc, rfl⟩ | ⟨rest, hc, hcmd, rfl⟩ := runCommand_fetched_cases hf hrun
    · exact receive_takesDue respond hc (ownsBytes_of_disciplined hs hc)
    · refine ⟨⟨[], (deliver_placedSerials ..).symm, ?_⟩, deliver_onCourse ..⟩
      rw [deliver_dueSerials]
      simp [State.dueSerials, hc]
    · have hs' := latched_disciplined hc hcmd hs
      obtain ⟨⟨taken, hplaced, hdue⟩, ht⟩ := receive_takesDue respond rfl (ownsBytes_of_disciplined hs' rfl)
      exact ⟨⟨taken, hplaced, (latched_dueSerials hc hcmd).symm.trans hdue⟩, ht⟩

/-- A step without RST keeps R219 and leaves missing what was missing. -/
theorem step_keeps_discipline {s t : State} (hs : s.disciplined) (hrst : s.rst = false) (h : step s = .next t) :
    t.disciplined ∧ t.missingSerials = s.missingSerials := by
  obtain ⟨htakes, ht⟩ := step_takesDue hs hrst h
  exact htakes.disciplined hs ht

theorem fetch_onCourse {s t : State} {d : Descriptor} (h : fetch s = some (d, t)) (hs : s.onCourse = true) :
    t.onCourse = true := by
  obtain ⟨p, -, rfl⟩ | ⟨p, o, -, rfl⟩ | ⟨p, -, rfl⟩ | ⟨rest, -, -, rfl⟩ := fetch_cases h
  · exact hs
  · exact hs
  · exact hs
  · rfl

theorem exists_runCommand_eq_next {s : State} (hs : s.onCourse = true) (d : Descriptor) (len : Nat)
    (respond : List Byte → Reply) : ∃ t, runCommand d len respond s = .next t := by
  obtain ⟨-, d', -, -, heq⟩ | ⟨e, p, o, -, heq⟩ | ⟨e, p, hc, -⟩ := runCommand_cases d len respond s
  · exact ⟨_, heq⟩
  · exact ⟨_, heq⟩
  · simp [State.onCourse, hc] at hs

/-- Settles O58: only a core astray and LEN above LMAX are refused. -/
theorem disciplinedHostIsNeverRefused : Obligations.DisciplinedHostIsNeverRefused := by
  intro s hs hrst hlen
  obtain ⟨t, h⟩ : ∃ t, step s = .next t := by
    cases hf : fetch s with
    | none => exact ⟨s, step_of_fetch_none hrst hf⟩
    | some dt =>
      obtain ⟨d, s'⟩ := dt
      obtain ⟨respond, -, hstep⟩ := step_of_fetch hrst hf (hlen d s' hf)
      rw [hstep]
      exact exists_runCommand_eq_next (fetch_onCourse hf hs.1) ..
  obtain ⟨ht, -⟩ := step_keeps_discipline hs hrst h
  exact ⟨t, h, ht⟩

/-! #### What the host places is added to the bytes due, or taken off those missing -/

/-- A descriptor placed behind whole descriptors adds its `LEN` bytes to those due. -/
theorem hostPlaceWords_dueSerials {s : State} (d : Descriptor) (h : s.cmd.length % 4 = 0) :
    (s.hostPlaceWords d.words).dueSerials = s.dueSerials ++ List.replicate d.len s.nextSerial := by
  cases hc : s.core <;>
    simp [State.hostPlaceWords, State.dueSerials, State.nextSerial, hc, serialsFor_append_words _ d h]

theorem hostPlaceWords_discipline {s : State} (d : Descriptor) (hs : s.disciplined) (h : s.cmd.length % 4 = 0) :
    (s.hostPlaceWords d.words).disciplined ∧
    (s.hostPlaceWords d.words).missingSerials = s.missingSerials ++ List.replicate d.len s.nextSerial := by
  obtain ⟨hc, hdue⟩ := disciplined_iff.mp hs
  refine disciplined_of_due_eq hc ?_
  rw [hostPlaceWords_dueSerials d h, hdue, List.append_assoc]
  rfl

theorem hostPlacePayload_placedSerials (s : State) (n : Nat) (bytes : List Byte) :
    (s.hostPlacePayload n bytes).placedSerials = s.placedSerials ++ List.replicate bytes.length n := by
  simp [State.hostPlacePayload, State.placedSerials, List.map_eq_replicate_iff]

theorem hostPlacePayload_discipline {s : State} {n : Nat} {bytes : List Byte} {others : List Nat}
    (hs : s.disciplined) (h : s.missingSerials = List.replicate bytes.length n ++ others) :
    (s.hostPlacePayload n bytes).disciplined ∧ (s.hostPlacePayload n bytes).missingSerials = others := by
  obtain ⟨hc, hdue⟩ := disciplined_iff.mp hs
  refine disciplined_of_due_eq hc ?_
  rw [hostPlacePayload_placedSerials, List.append_assoc, ← h, ← hdue]
  rfl

/-- Placing all that is missing leaves nothing missing. -/
theorem hostPlacePayload_supplied {s : State} {n : Nat} {bytes : List Byte} (hs : s.disciplined)
    (h : s.missingSerials = List.replicate bytes.length n) : (s.hostPlacePayload n bytes).supplied :=
  supplied_iff.mpr (hostPlacePayload_discipline hs (by rw [h, List.append_nil]))

/-- After a descriptor has been placed on a supplied core, its payload bytes are what is missing. -/
theorem hostPlaceWords_of_supplied {s : State} (d : Descriptor) (hs : s.supplied) (h : s.cmd.length % 4 = 0) :
    (s.hostPlaceWords d.words).disciplined ∧
    (s.hostPlaceWords d.words).missingSerials = List.replicate d.len s.nextSerial := by
  obtain ⟨hs, hmissing⟩ := supplied_iff.mp hs
  obtain ⟨hwords, hmissing'⟩ := hostPlaceWords_discipline d hs h
  exact ⟨hwords, by rw [hmissing', hmissing, List.nil_append]⟩

theorem hostIssue_supplied {s : State} {c : Command} (hs : s.supplied) (h : s.cmd.length % 4 = 0)
    (hlen : c.payload.length = c.desc.len) : (s.hostIssue c).supplied := by
  obtain ⟨hwords, hmissing⟩ := hostPlaceWords_of_supplied c.desc hs h
  exact hostPlacePayload_supplied hwords (by rw [hmissing, hlen])

/-- Emptying the channels of an idle core leaves nothing due and nothing stray (R212). -/
theorem hostFlush_supplied {s : State} (hc : s.core = .idle) : s.hostFlush.supplied := by
  have hcore : s.hostFlush.core = .idle := hc
  have hcmd : s.hostFlush.cmd = [] := rfl
  have hdin : s.hostFlush.din = [] := rfl
  simp [State.supplied, State.onCourse, State.placedSerials, State.dueSerials, serialsFor, hcore, hcmd, hdin]

/-- Settles O59: a descriptor adds to the bytes missing, payload takes from them, and a step leaves them as they are. -/
theorem exactPayloadsKeepDiscipline : Obligations.ExactPayloadsKeepDiscipline := by
  refine ⟨fun s d => hostPlaceWords_discipline d, fun s n bytes others => hostPlacePayload_discipline,
    fun s t => step_keeps_discipline, fun s d first second hs hcmd hlen => ?_, fun s => hostFlush_supplied⟩
  obtain ⟨hwords, hmissing⟩ := hostPlaceWords_of_supplied d hs hcmd
  rw [← hlen, ← List.replicate_append_replicate] at hmissing
  obtain ⟨hfirst, hsecond⟩ := hostPlacePayload_discipline hwords hmissing
  refine ⟨hwords, hfirst, hostPlacePayload_supplied hfirst hsecond, fun t hrst hstep => ?_, ?_⟩
  · obtain ⟨ht, hleft⟩ := step_keeps_discipline hfirst hrst hstep
    exact hostPlacePayload_supplied ht (hleft.trans hsecond)
  · exact hostIssue_supplied hs hcmd (by simpa using hlen)

end Sys2Proof.Machine
end
